-- ==== Sys2Proof/Word.lean ====
section
/-! DEFINITION. The word and number types of the block (spec 00_scope.md R10, R13, R49; 30_encoding.md R92). -/

namespace Sys2Proof

/-- `Num`, the values of the numerics `NUM` (R8, R13, R49): the rationals, which are the values of the reference
numerics and among which are the finite values of any other format. What the operations give is `Numerics`. Log
entry 7. -/
abbrev Num := Rat

/-- The four operations of `NUM` that the rules use (R13, R15). -/
inductive NumOp where
  | add
  | sub
  | mul
  | div
deriving DecidableEq, Repr

/-- Numerics `NUM` (R8, R15; spec decisions D1, D29): the result of each operation, none where it is not finite (U6).
Every rule's definition takes its numerics as an argument. -/
abbrev Numerics := NumOp → Num → Num → Option Num

/-- Which numerics an instance has (R8 row `NUM`): the exact rationals, or another instance, by a number. -/
inductive NumericsChoice where
  | exact
  | other (id : Nat)
deriving DecidableEq, Repr

/-- A request word `REQ[15:0]` (R92): 16 bits, bit 0 least significant (R10). -/
abbrev ReqWord := BitVec 16

/-- A target in RPM, `RPM_W` = 9 bits (R8, spec decision D19). -/
abbrev RpmWord := BitVec 9

/-- A duty, `DUTY_W` = 8 bits (R8). -/
abbrev DutyWord := BitVec 8

/-- A text of the trace syntax (R104) or of the command link (R110), character by character. -/
abbrev Text := List Char

end Sys2Proof
end

