-- ==== Sys2Proof/Config.lean ====
section
/-! DEFINITION. The configuration of the block (spec 00_scope.md R7, R8, R9): the parameters of an
instance with the values R8 gives them, and the values the spec leaves open. -/

namespace Sys2Proof

/-- The largest target the link delivers (R91, R114). -/
def Config.linkMaxRpm : Nat := 500

/-- The link's buffer limit in characters (R112, R304). -/
def Config.linkBufferLimit : Nat := 25

/-- `LPF_A`'s value in R8: 534/625. -/
def Config.defaultLpfA : Num := 534 / 625

/-- `LPF_B`'s value in R8: 91/1250. -/
def Config.defaultLpfB : Num := 91 / 1250

/-- The configuration fields of R8, whatever their values; the fields to which R8 gives a value have it as their
default. `RPM_W` and `DUTY_W` are not here: they are the widths of a request field and of a port (log entry 8). -/
structure ConfigFields where
  /-- `NUM`, the numerics. -/
  numerics : NumericsChoice := .exact
  /-- `KP`, proportional gain: any number. -/
  kp : Num
  /-- `KI`, integral gain: any number. -/
  ki : Num
  /-- `KD`, derivative gain: any number. -/
  kd : Num
  /-- `RAMP_RATE`, RPM per second. -/
  rampRate : Num
  /-- `PULSES_PER_REV`. -/
  pulsesPerRev : Num
  /-- `LOOP_DEADBAND_RPM`: the error magnitude at and above which the integral is frozen. -/
  loopDeadbandRpm : Num := 100
  /-- `INTEGRAL_CLAMP`: the symmetric bound of `integral_error`. -/
  integralClamp : Num := 100
  /-- `OUTPUT_CLAMP`: the largest duty. -/
  outputClamp : Nat := 254
  /-- `DIRECTION_RESET_THRESHOLD_RPM`: the target jump above which the PID state is reset. -/
  directionResetThresholdRpm : Nat := 50
  /-- `COMMAND_TIMEOUT_MS`: the link's staleness window (R263), used by the host's side only. -/
  commandTimeoutMs : Nat := 1000
  /-- `LPF_A`, the low-pass feedback coefficient: any number (R9). -/
  lpfA : Num := Config.defaultLpfA
  /-- `LPF_B`, the low-pass feed-forward coefficient: any number (R9). -/
  lpfB : Num := Config.defaultLpfB
  /-- `DT_MIN_US`, the floor of every elapsed time, in microseconds. -/
  dtMinUs : Nat := 1
  /-- `POS_W`, the width of `position` and `prev_position`. -/
  posW : Nat := 32
  /-- `TIME_W`, the width of the time base and of the stored timestamps. -/
  timeW : Nat := 32
deriving DecidableEq, Repr

/-- The side conditions on the fields: those of R8, U9 and U12; a symmetric clamp has a bound that is not negative
(R14: `lo <= hi`), and the largest duty fits `DUTY_W` bits (R8; log entry 8). -/
abbrev ConfigFields.Allowed (f : ConfigFields) : Prop :=
  0 ≤ f.rampRate ∧ 0 < f.pulsesPerRev ∧ 1 ≤ f.dtMinUs ∧ 0 ≤ f.integralClamp ∧ f.outputClamp ≤ 255

/-- A configuration of an instance (R8): fields that meet the side conditions. A configuration that breaks one cannot
be built, which is U9's refusal (`Config.make?`). -/
structure Config extends ConfigFields where
  allowed : toConfigFields.Allowed
deriving DecidableEq, Repr

theorem Config.rampRate_nonneg (cfg : Config) : 0 ≤ cfg.rampRate := cfg.allowed.1
theorem Config.pulsesPerRev_pos (cfg : Config) : 0 < cfg.pulsesPerRev := cfg.allowed.2.1
theorem Config.dtMinUs_pos (cfg : Config) : 1 ≤ cfg.dtMinUs := cfg.allowed.2.2.1
theorem Config.integralClamp_nonneg (cfg : Config) : 0 ≤ cfg.integralClamp := cfg.allowed.2.2.2.1
theorem Config.outputClamp_le (cfg : Config) : cfg.outputClamp ≤ 255 := cfg.allowed.2.2.2.2

/-- Construct a configuration, refusing fields that break a side condition (U9, U12). -/
def Config.make? (f : ConfigFields) : Option Config :=
  if h : f.Allowed then some { toConfigFields := f, allowed := h } else none

/-- `LPF_UNITY` (R9): unit gain for a constant input. -/
def Config.LpfUnity (cfg : Config) : Prop := cfg.lpfA + 2 * cfg.lpfB = 1

/-! ### Values the spec leaves open (no body: nothing can be proved of them). -/

/-- The OPEN gain `KP` of the instance (R8, U9, N1): any number. Log entry 2. -/
opaque Config.openKp : Num

/-- The OPEN gain `KI` of the instance (R8, U9, N1): any number. Log entry 2. -/
opaque Config.openKi : Num

/-- The OPEN gain `KD` of the instance (R8, U9, N1): any number. Log entry 2. -/
opaque Config.openKd : Num

/-- The OPEN `RAMP_RATE` of the instance: any number `>= 0` (R8, U9). Log entry 2. -/
opaque Config.openRampRate : NNRat

/-- Numerator of the OPEN `PULSES_PER_REV` of the instance (R8, U9). Log entry 2. -/
opaque Config.openPulsesPerRevNum : PNat

/-- Denominator of the OPEN `PULSES_PER_REV`: with the numerator, any number `> 0`. Log entry 2. -/
opaque Config.openPulsesPerRevDen : PNat

/-- The operations of an instance of `NUM` other than the exact rationals: the spec names no format and gives no law of
one (R15, R49, N2), so each result is left open. Log entry 7. -/
opaque Config.otherNumerics : Nat → Numerics

/-- The configuration of the instance after reset: the OPEN fields left open, the others at R8's values
(log entries 2 and 8). -/
def Config.installed : Config where
  kp := Config.openKp
  ki := Config.openKi
  kd := Config.openKd
  rampRate := (Config.openRampRate : Num)
  pulsesPerRev := ((Config.openPulsesPerRevNum : Nat) : Num) / ((Config.openPulsesPerRevDen : Nat) : Num)
  allowed := ⟨Config.openRampRate.2,
    div_pos (Nat.cast_pos.mpr Config.openPulsesPerRevNum.2) (Nat.cast_pos.mpr Config.openPulsesPerRevDen.2),
    Nat.le_refl 1, by norm_num, by norm_num⟩

/-- What the host's link clamps an out-of-range direction to: some code of 0, 1, 2 (N14, U15). Log entry 14. -/
opaque Config.linkDirClamp : Nat → Fin 3

/-- What the host's link reads in a field that is not a run of decimal digits: some number, or `none`
where it drops the frame (N14). Log entry 14. -/
opaque Config.linkOddField : Text → Option Nat

end Sys2Proof
end

