-- ==== Sys2Proof/Syntax.lean ====
section
/-! DEFINITION. The requests of the block (spec 30_encoding.md R90 to R96), one constructor per row of
spec/opcode_table.json. -/

namespace Sys2Proof

/-- A motor channel (R7): M1 is index 0, M2 is index 1. -/
inductive Channel where
  | m1
  | m2
deriving DecidableEq, Repr

/-- The other channel. -/
def Channel.other : Channel → Channel
  | .m1 => .m2
  | .m2 => .m1

/-- The requests (R95). `rpm` is the target field of a format C word as a natural number of RPM (R96);
in the two `STOP` rows the word keeps it and the semantics ignores it (R105, R107). -/
inductive Instr where
  /-- `STOP ch`, the row `dir` = 0 (R217). -/
  | stop (ch : Channel) (rpm : Nat)
  /-- `STOP ch`, the row `dir` = 3, "any other code" (R90, R101, R217). -/
  | stopCode3 (ch : Channel) (rpm : Nat)
  /-- `FWD ch, rpm` (R216). -/
  | fwd (ch : Channel) (rpm : Nat)
  /-- `REV ch, rpm` (R220). -/
  | rev (ch : Channel) (rpm : Nat)
  /-- `EDGE ch` (R130). -/
  | edge (ch : Channel)
  /-- `SNAP ch` (R136). -/
  | snap (ch : Channel)
  /-- `RST` (R290). -/
  | rst
deriving DecidableEq, Repr

/-- Why a request word is reserved (R100). -/
inductive Reserved where
  /-- `kind` is 100, 101, 110 or 111 (R102's custom space). -/
  | kind
  /-- Format C with `z` = 1. -/
  | zBit
  /-- `EDGE` or `SNAP` with a non-zero `zero` field. -/
  | zeroField
  /-- `RST` with any of bits 12:0 set. -/
  | resetBits
deriving DecidableEq, Repr

/-- The channel a request names; `RST` names none (R93, R94). -/
def Instr.channel? : Instr → Option Channel
  | .stop ch _ => some ch
  | .stopCode3 ch _ => some ch
  | .fwd ch _ => some ch
  | .rev ch _ => some ch
  | .edge ch => some ch
  | .snap ch => some ch
  | .rst => none

end Sys2Proof
end

