-- ==== Sys2Proof/WellFormed.lean ====
section
/-! DEFINITION. When a request fits its encoding (spec 30_encoding.md R93, R95), and when a conforming
host may send it (20_memory.md R80). -/

namespace Sys2Proof

/-- The target fits the `RPM_W`-bit field (R93: 0 to 511 representable). -/
def rpmFits (rpm : Nat) : Bool := decide (rpm < 2 ^ 9)

/-- A request that some word encodes: the target of a format C request fits its field. -/
def Instr.wellFormed : Instr → Bool
  | .stop _ rpm => rpmFits rpm
  | .stopCode3 _ rpm => rpmFits rpm
  | .fwd _ rpm => rpmFits rpm
  | .rev _ rpm => rpmFits rpm
  | .edge _ => true
  | .snap _ => true
  | .rst => true

/-- `Instr.wellFormed` as a proposition. -/
abbrev Instr.WellFormed (i : Instr) : Prop := i.wellFormed = true

/-- The host's duty on the target (R80, R91, U4): `rpm` in `[0, 500]`. The block performs a larger target
as given (R221); this is a premise a claim may take, not a check. -/
def Instr.hostConforming : Instr → Bool
  | .stop _ rpm => decide (rpm ≤ Config.linkMaxRpm)
  | .stopCode3 _ rpm => decide (rpm ≤ Config.linkMaxRpm)
  | .fwd _ rpm => decide (rpm ≤ Config.linkMaxRpm)
  | .rev _ rpm => decide (rpm ≤ Config.linkMaxRpm)
  | .edge _ => true
  | .snap _ => true
  | .rst => true

end Sys2Proof
end

