-- ==== Sys2Proof/Decode.lean ====
section
/-! DEFINITION. The decoder of R99, the encoder of R93 to R95, and the opcode table as match and mask. -/

namespace Sys2Proof

/-- `kind` = `w[15:13]` (R93, R94). -/
def kindField (w : ReqWord) : BitVec 3 := w.extractLsb' 13 3

/-- `ch` = `w[12]`. -/
def chField (w : ReqWord) : BitVec 1 := w.extractLsb' 12 1

/-- `z` = `w[11]` of format C. -/
def zField (w : ReqWord) : BitVec 1 := w.extractLsb' 11 1

/-- `dir` = `w[10:9]` of format C. -/
def dirField (w : ReqWord) : BitVec 2 := w.extractLsb' 9 2

/-- `rpm` = `w[8:0]` of format C. -/
def rpmField (w : ReqWord) : RpmWord := w.extractLsb' 0 9

/-- `zero` = `w[11:0]` of format E. -/
def zeroField (w : ReqWord) : BitVec 12 := w.extractLsb' 0 12

/-- `ch` = 0 selects M1, 1 selects M2 (R93). -/
def channelOfBit (b : BitVec 1) : Channel := if b = 0#1 then .m1 else .m2

/-- The `ch` bit of a channel (R93). -/
def channelBit : Channel → BitVec 1
  | .m1 => 0#1
  | .m2 => 1#1

/-- The control request a `dir` code selects (R90, R99): 1 is `FWD`, 2 is `REV`, 0 and 3 are `STOP`. -/
def controlRequest (ch : Channel) (dir : BitVec 2) (rpm : Nat) : Instr :=
  if dir = 1#2 then .fwd ch rpm
  else if dir = 2#2 then .rev ch rpm
  else if dir = 0#2 then .stop ch rpm
  else .stopCode3 ch rpm

/-- The decoder of R99: total, every word is exactly one request or reserved, with the reason (R100). -/
def decode (w : ReqWord) : Except Reserved Instr :=
  if kindField w = 0b000#3 then
    if zField w = 0#1 then
      .ok (controlRequest (channelOfBit (chField w)) (dirField w) (rpmField w).toNat)
    else .error .zBit
  else if kindField w = 0b001#3 then
    if zeroField w = 0#12 then .ok (.edge (channelOfBit (chField w))) else .error .zeroField
  else if kindField w = 0b010#3 then
    if zeroField w = 0#12 then .ok (.snap (channelOfBit (chField w))) else .error .zeroField
  else if kindField w = 0b011#3 then
    if zeroField w = 0#12 ∧ chField w = 0#1 then .ok .rst else .error .resetBits
  else .error .kind

/-- A format C word (R93): `kind` = 000, `ch`, `z` = 0, `dir`, `rpm`. -/
def formatC (ch : Channel) (dir : BitVec 2) (rpm : Nat) : ReqWord :=
  0b000#3 ++ channelBit ch ++ 0#1 ++ dir ++ BitVec.ofNat 9 rpm

/-- A format E word (R94): `kind`, `ch`, `zero` = 0. -/
def formatE (kind : BitVec 3) (ch : Channel) : ReqWord :=
  kind ++ channelBit ch ++ 0#12

/-- The word of a request (R95). -/
def encode : Instr → ReqWord
  | .stop ch rpm => formatC ch 0#2 rpm
  | .stopCode3 ch rpm => formatC ch 3#2 rpm
  | .fwd ch rpm => formatC ch 1#2 rpm
  | .rev ch rpm => formatC ch 2#2 rpm
  | .edge ch => formatE 0b001#3 ch
  | .snap ch => formatE 0b010#3 ch
  | .rst => formatE 0b011#3 .m1

/-- A row of the opcode table: a word `w` is the request of the row when `w & mask = pattern` (R95). -/
structure TableRow where
  pattern : ReqWord
  mask : ReqWord
deriving DecidableEq, Repr

/-- The test of R95. -/
def TableRow.accepts (r : TableRow) (w : ReqWord) : Bool := (w &&& r.mask) == r.pattern

/-- The row of each request (R95's table, spec/opcode_table.json). -/
def Instr.row : Instr → TableRow
  | .stop _ _ => ⟨0x0000#16, 0xEE00#16⟩
  | .stopCode3 _ _ => ⟨0x0600#16, 0xEE00#16⟩
  | .fwd _ _ => ⟨0x0200#16, 0xEE00#16⟩
  | .rev _ _ => ⟨0x0400#16, 0xEE00#16⟩
  | .edge _ => ⟨0x2000#16, 0xEFFF#16⟩
  | .snap _ => ⟨0x4000#16, 0xEFFF#16⟩
  | .rst => ⟨0x6000#16, 0xFFFF#16⟩

/-- The seven rows of R95's table, in its order. -/
def opcodeTable : List TableRow :=
  [⟨0x0000#16, 0xEE00#16⟩, ⟨0x0600#16, 0xEE00#16⟩, ⟨0x0200#16, 0xEE00#16⟩, ⟨0x0400#16, 0xEE00#16⟩,
   ⟨0x2000#16, 0xEFFF#16⟩, ⟨0x4000#16, 0xEFFF#16⟩, ⟨0x6000#16, 0xFFFF#16⟩]

/-- The request word whose `nbits` low bits are those of `w`, the bits above them 0. -/
def tableWord (nbits w : Nat) : ReqWord := BitVec.ofNat 16 (w % 2 ^ nbits)

/-- The instruction the decoder reads from an instruction whose bits are `w`; none for a length no request
has (R92: every request is one 16-bit word, none is shorter or longer). -/
def decodeTableWord (nbits w : Nat) : Option Instr :=
  if nbits = 16 then
    match decode (tableWord nbits w) with
    | .ok i => some i
    | .error _ => none
  else none

end Sys2Proof
end

