-- ==== Sys2Proof/Machine/Numerics.lean ====
section
/-! DEFINITION. The numerics `NUM` (spec 00_scope.md R8, R13, R15, R49): the reference numerics, and the numerics of a
configuration. Each operation of a rule's pseudocode is one operation here, in the order the rule writes it (R15). -/

namespace Sys2Proof.Machine

/-- The reference numerics (R49): the field of rationals, every operation exact and finite. The rules make every
divisor positive (R13). -/
def exactNumerics : Numerics
  | .add, a, b => some (a + b)
  | .sub, a, b => some (a - b)
  | .mul, a, b => some (a * b)
  | .div, a, b => some (a / b)

end Sys2Proof.Machine

namespace Sys2Proof

/-- The numerics of the instance (R8 row `NUM`). -/
def Config.num (cfg : Config) : Numerics :=
  match cfg.numerics with
  | .exact => Machine.exactNumerics
  | .other id => Config.otherNumerics id

end Sys2Proof
end

