-- ==== Sys2Proof/Machine/State.lean ====
section
/-! DEFINITION. The state of the device (spec 10_state.md), the reset state (R47) and the reasons a step
can stop. -/

namespace Sys2Proof.Machine

/-- The low-pass filter memory of one estimation method (R27, R28): "two independent filter states, one per
velocity-estimation method". -/
structure FilterState where
  /-- `filtered_velocity[ch][m]`, RPM (R27). -/
  filteredVelocity : Num
  /-- `prev_raw_velocity[ch][m]`, RPM (R28). -/
  prevRawVelocity : Num
deriving DecidableEq, Repr

/-- The record `MotorChannel` of one channel (R20). `POS_W` and `TIME_W` are parameters (R8), so the counts and the times
are natural numbers that the rules keep below `2^POS_W` and `2^TIME_W`, without wrap (R24, R32). Log entry 18. -/
structure MotorChannel where
  /-- `position`, `POS_W` bits, interrupt domain (R21). -/
  position : Nat
  /-- `interrupt_velocity`, pulses per second, interrupt domain (R22). -/
  interruptVelocity : Num
  /-- `last_interrupt_time`, `TIME_W` bits, microseconds, interrupt domain (R23). -/
  lastInterruptTime : Nat
  /-- `last_loop_time`, `TIME_W` bits, microseconds, loop domain (R25). -/
  lastLoopTime : Nat
  /-- `prev_position`, `POS_W` bits, loop domain (R26). -/
  prevPosition : Nat
  /-- Filter memory of method 1, the PID feedback signal, loop domain (R27, R28). -/
  filter1 : FilterState
  /-- Filter memory of method 2, telemetry only, loop domain (R27, R28, R158). -/
  filter2 : FilterState
  /-- `integral_error`, RPM·seconds, loop domain (R29). -/
  integralError : Num
  /-- `prev_error`, RPM, loop domain (R30). -/
  prevError : Num
  /-- `smoothed_target`, RPM, loop domain (R31). -/
  smoothedTarget : Num
  /-- `prev_commanded_target`, RPM, supervisor domain (R34). -/
  prevCommandedTarget : RpmWord
  /-- `prev_direction`, a direction code, supervisor domain (R35); it is the Supervisor's state (R36). -/
  prevDirection : BitVec 2
  /-- `duty`, output register (R37). -/
  duty : DutyWord
  /-- `en1`, output register (R38). -/
  en1 : BitVec 1
  /-- `en2`, output register (R38). -/
  en2 : BitVec 1
deriving DecidableEq, Repr

/-- A trace entry (R92): the request word and the time-base value sampled with it. An entry whose time
does not fit `TIME_W` bits can be written and is refused (U2). -/
structure Request where
  now : Nat
  word : ReqWord
deriving DecidableEq, Repr

/-- The device: two `MotorChannel` records (R20), the two snapshot ports (R61, R66), the instance's
configuration (R8), and the host's side of the input ports: the time base presented with the last request
(`now_us`, R63) and the requests still to be performed (the rest of the trace, R92, R295). -/
structure State where
  /-- The configuration: constant, written by nothing (R8, R42). Log entry 1. -/
  config : Config
  /-- Channel M1. -/
  m1 : MotorChannel
  /-- Channel M2. -/
  m2 : MotorChannel
  /-- Port `snap_pos` (R66). -/
  snapPos : Nat
  /-- Port `snap_vel` (R66). -/
  snapVel : Num
  /-- Port `now_us` as the host last presented it (R63). Log entry 4. -/
  nowUs : Nat
  /-- The requests the host has still to present, in the order they are performed (R73, R295). Log entry 3. -/
  requests : List Request
deriving DecidableEq, Repr

/-- The faults of the model. -/
inductive Fault where
  /-- Raised by `EDGE ch` when `position[ch] = 2^POS_W - 1` (R24, R130, U1): the spec gives no effect. Safe:
  nothing is proved about such a run. -/
  | positionOverflow (ch : Channel)
  /-- Raised by `EDGE`, `FWD` and `REV` where an operation of the instance's numerics is not finite (R300, U6); the
  reference numerics never raise it. Safe: nothing is proved about such a run. -/
  | nonFinite (ch : Channel)
deriving DecidableEq, Repr

/-- The refusals of the model: requests that the spec puts outside what a conforming host does. -/
inductive Refusal where
  /-- Raised by an arm of `exec` for an instruction not modelled; no arm raises it. Safe. -/
  | notModelled (mnemonic : String)
  /-- Raised by `step` for a reserved word (R100, U5). Safe. -/
  | reservedWord (why : Reserved)
  /-- Raised by `step` for a trace entry whose time does not fit `TIME_W` bits (R92, U2). Safe. -/
  | timeTooWide (now : Nat)
  /-- Raised by `step` for a trace whose times decrease (R63, R104, U3). Safe. -/
  | traceTimeDecreases (now : Nat)
  /-- Raised by `EDGE ch` with `now < last_interrupt_time[ch]` (R16, R130, U3). Safe. -/
  | edgeBeforeLastEdge (ch : Channel)
  /-- Raised by `FWD` and `REV` with `now < last_loop_time[ch]` (R16, R216 corner (f), U3). Safe. -/
  | loopBeforeLastLoop (ch : Channel)
deriving DecidableEq, Repr

/-- Filter memory after reset (R47). -/
def FilterState.reset : FilterState := ⟨0, 0⟩

/-- A channel after reset (R47): every field zero. -/
def MotorChannel.reset : MotorChannel where
  position := 0
  interruptVelocity := 0
  lastInterruptTime := 0
  lastLoopTime := 0
  prevPosition := 0
  filter1 := FilterState.reset
  filter2 := FilterState.reset
  integralError := 0
  prevError := 0
  smoothedTarget := 0
  prevCommandedTarget := 0#9
  prevDirection := 0#2
  duty := 0#8
  en1 := 0#1
  en2 := 0#1

/-- The machine right after reset: both channels zero (R47), the OPEN configuration left open (R8), no
request presented (R291), the snapshot ports at zero (DESIGN CHOICE, log entry 5). -/
def State.reset : State where
  config := Config.installed
  m1 := MotorChannel.reset
  m2 := MotorChannel.reset
  snapPos := 0
  snapVel := 0
  nowUs := 0
  requests := []

end Sys2Proof.Machine
end

