-- ==== Sys2Proof/Machine/Ops.lean ====
section
/-! DEFINITION. The named operations over the state and the pure functions of R14. The block has no memory
(R60), no program counter (R40), no register file (R43), and raises no exception (R250); taking an encoder
interrupt performs `EDGE ch` and saves nothing (R258), so that entry is `execEdge` and there is no return
from it (R259). -/

namespace Sys2Proof.Machine

/-! ### State access (R11) -/

/-- `reg[ch]`: the record of channel `ch`. -/
def State.chan (s : State) : Channel → MotorChannel
  | .m1 => s.m1
  | .m2 => s.m2

/-- `reg[ch] <- v`: replace the record of channel `ch`, nothing else. -/
def State.setChan (s : State) (ch : Channel) (c : MotorChannel) : State :=
  match ch with
  | .m1 => { s with m1 := c }
  | .m2 => { s with m2 := c }

/-- End a request of channel `ch`: write the record it computed, or fault where its numerics is not finite (U6). -/
def finishChannel (ch : Channel) (s : State) (r : Option MotorChannel) : Host.Outcome State Fault Refusal :=
  match r with
  | some c => .next (s.setChan ch c)
  | none => .fault (.nonFinite ch)

/-! ### Pure functions (R14) -/

/-- `clamp(x, lo, hi) = min(max(x, lo), hi)`. -/
def clampNum (x lo hi : Num) : Num := min (max x lo) hi

/-- `round_hu(x) = floor(x + 1/2)`: round to nearest, ties up; used only for `x >= 0`. The `+` is one operation of the
numerics (R15). DESIGN CHOICE: its `1/2` is an exact literal, not a `/` of the numerics, a point R14 and R15 leave open
(log entry 7). -/
def roundHu (N : Numerics) (x : Num) : Option Nat := (N .add x (1 / 2)).map (fun y => y.floor.toNat)

/-- `us_to_s(n) = n / 1000000`: microseconds to seconds. -/
def usToS (N : Numerics) (n : Nat) : Option Num := N .div (n : Num) 1000000

/-- `abs(a - b)` of two naturals, without wrap: `max(a, b) - min(a, b)` (R48). -/
def absDiff (a b : Nat) : Nat := max a b - min a b

/-! ### The output ports (R61, R65, R66): they always show the registers -/

/-- `pwm_duty[ch]`. -/
def State.pwmDuty (s : State) (ch : Channel) : DutyWord := (s.chan ch).duty

/-- `dir_en1[ch]`. -/
def State.dirEn1 (s : State) (ch : Channel) : BitVec 1 := (s.chan ch).en1

/-- `dir_en2[ch]`. -/
def State.dirEn2 (s : State) (ch : Channel) : BitVec 1 := (s.chan ch).en2

/-- `tlm_filt1[ch]` shows `filtered_velocity[ch][1]`. -/
def State.tlmFilt1 (s : State) (ch : Channel) : Num := (s.chan ch).filter1.filteredVelocity

/-- `tlm_filt2[ch]` shows `filtered_velocity[ch][2]`. -/
def State.tlmFilt2 (s : State) (ch : Channel) : Num := (s.chan ch).filter2.filteredVelocity

/-- `tlm_target[ch]` shows `smoothed_target[ch]`. -/
def State.tlmTarget (s : State) (ch : Channel) : Num := (s.chan ch).smoothedTarget

end Sys2Proof.Machine
end

