-- ==== Sys2Proof/Machine/Operands.lean ====
section
/-! DEFINITION. The operand forms of the requests: the sampled time and the elapsed times made from it
(R16, R63), the target (R96), the direction codes (R90). -/

namespace Sys2Proof.Machine

/-- Direction code of stop, forward and reverse (R90). -/
def dirStop : BitVec 2 := 0#2
def dirForward : BitVec 2 := 1#2
def dirReverse : BitVec 2 := 2#2

/-- `elapsed_us(now, last) = max(now - last, DT_MIN_US)` (R16); its callers require `now >= last`. -/
def elapsedUs (cfg : Config) (now last : Nat) : Nat := max (now - last) cfg.dtMinUs

/-- `elapsed_s(now, last) = us_to_s(elapsed_us(now, last))` (R16). -/
def elapsedS (N : Numerics) (cfg : Config) (now last : Nat) : Option Num := usToS N (elapsedUs cfg now last)

/-- The target operand as a `Num`, without scaling (R48, R96). -/
def targetNum (rpm : Nat) : Num := (rpm : Num)

/-- The pulses counted since the last control-loop call, a subtraction of naturals, as a `Num` (R48). -/
def pulseDelta (pos prev : Nat) : Num := ((pos - prev : Nat) : Num)

/-- Pulses per second to RPM: divide, then multiply (R150, R151). -/
def toRpm (N : Numerics) (cfg : Config) (pps : Num) : Option Num := do
  let rps ← N .div pps cfg.pulsesPerRev
  N .mul rps 60

end Sys2Proof.Machine
end

