-- ==== Sys2Proof/Machine/Flags.lean ====
section
/-! DEFINITION. The conditions a request tests. The block has no flags and no condition codes: these are
computed inside one request and stored nowhere (R41). -/

namespace Sys2Proof.Machine

/-- `now >= last`, the host contract of R16. -/
def timeInOrder (now last : Nat) : Bool := decide (last ≤ now)

/-- `position < 2^POS_W - 1`, the requirement of R130 (R24). -/
def positionCanCount (cfg : Config) (p : Nat) : Bool := decide (p < 2 ^ cfg.posW - 1)

/-- `abs(e) < LOOP_DEADBAND_RPM`, strict: the integral is updated (R180, R181). -/
def integrates (cfg : Config) (e : Num) : Bool := decide (|e| < cfg.loopDeadbandRpm)

/-- The command is a discontinuity (R216, R220 step 2): the direction differs from the previous tick's, or
the target differs from the previous tick's by more than the threshold, strict. -/
def discontinuity (cfg : Config) (c : MotorChannel) (dir : BitVec 2) (rpm : Nat) : Bool :=
  decide (c.prevDirection ≠ dir) ||
    decide (cfg.directionResetThresholdRpm < absDiff rpm c.prevCommandedTarget.toNat)

end Sys2Proof.Machine
end

