-- ==== Sys2Proof/Machine/Encoder.lean ====
section
/-! DEFINITION. The Encoder Counter (spec 40_encoder_counter.md): `EDGE` and `SNAP`. -/

namespace Sys2Proof.Machine

/-- The pair `(pos, iv)` of one atomic snapshot (R136). -/
structure Snapshot where
  pos : Nat
  iv : Num
deriving DecidableEq, Repr

/-- `read_snapshot()`: both values of one and the same state (R69, R136). -/
def readSnapshot (c : MotorChannel) : Snapshot := ⟨c.position, c.interruptVelocity⟩

/-- The velocity of a pulse, `1 / dt` pulses per second (R130). -/
def pulseVelocity (N : Numerics) (cfg : Config) (now last : Nat) : Option Num := do
  let dt ← elapsedS N cfg now last
  N .div 1 dt

/-- The writes of `EDGE` (R130): the interrupt domain of the channel, nothing else. -/
def countPulse (N : Numerics) (cfg : Config) (now : Nat) (c : MotorChannel) : Option MotorChannel := do
  let v ← pulseVelocity N cfg now c.lastInterruptTime
  return { c with position := c.position + 1, interruptVelocity := v, lastInterruptTime := now }

/-- `EDGE ch` (R130): refused when the clock runs backwards (U3), a fault at the top of `position` (U1) and where
another numerics is not finite (U6). -/
def execEdge (ch : Channel) (s : State) : Host.Outcome State Fault Refusal :=
  if timeInOrder s.nowUs (s.chan ch).lastInterruptTime then
    if positionCanCount s.config (s.chan ch).position then
      finishChannel ch s (countPulse s.config.num s.config s.nowUs (s.chan ch))
    else .fault (.positionOverflow ch)
  else .refused (.edgeBeforeLastEdge ch)

/-- `SNAP ch` (R136) as a request of its own: the ports `snap_pos`, `snap_vel` show the snapshot; no channel's
state is written. -/
def execSnap (ch : Channel) (s : State) : Host.Outcome State Fault Refusal :=
  .next { s with snapPos := (readSnapshot (s.chan ch)).pos, snapVel := (readSnapshot (s.chan ch)).iv }

end Sys2Proof.Machine
end

