-- ==== Sys2Proof/Machine/Reset.lean ====
section
/-! DEFINITION. Reset as a request (spec 70_reset_and_hazards.md): `RST`. -/

namespace Sys2Proof.Machine

/-- The writes of `RST` to one channel (R290), field by field. -/
def resetChannel (c : MotorChannel) : MotorChannel :=
  { c with
    position := 0
    interruptVelocity := 0
    lastInterruptTime := 0
    lastLoopTime := 0
    prevPosition := 0
    filter1 := ⟨0, 0⟩
    filter2 := ⟨0, 0⟩
    integralError := 0
    prevError := 0
    smoothedTarget := 0
    prevCommandedTarget := 0#9
    prevDirection := 0#2
    duty := 0#8
    en1 := 0#1
    en2 := 0#1 }

/-- `RST` (R290): both channels; the time base and the configuration are not changed (corner cases (a), (b)),
and the snapshot ports keep showing the last `SNAP` (R66; log entry 6). -/
def execRst (s : State) : Host.Outcome State Fault Refusal :=
  .next ((s.setChan .m1 (resetChannel (s.chan .m1))).setChan .m2 (resetChannel (s.chan .m2)))

end Sys2Proof.Machine
end

