-- ==== Sys2Proof/Machine/Estimator.lean ====
section
/-! DEFINITION. The Velocity Estimator and the low-pass filter (spec 41_velocity_estimator.md): the
micro-operations `VEST` and `LPF`. -/

namespace Sys2Proof.Machine

/-- What `VEST` returns (R150): `dt` in seconds, and the raw RPM by both methods. -/
structure Estimates where
  dt : Num
  rpm1 : Num
  rpm2 : Num
deriving DecidableEq, Repr

/-- The values `VEST` computes (R150), from the registers as the last call left them. -/
def estimates (N : Numerics) (cfg : Config) (c : MotorChannel) (snap : Snapshot) (now : Nat) :
    Option Estimates := do
  let dt ← elapsedS N cfg now c.lastLoopTime
  let v1 ← N .div (pulseDelta snap.pos c.prevPosition) dt
  let rpm1 ← toRpm N cfg v1
  let rpm2 ← toRpm N cfg snap.iv
  return ⟨dt, rpm1, rpm2⟩

/-- `VEST` (R150): the estimates, and the retained position and time replaced by this call's. -/
def vest (N : Numerics) (cfg : Config) (c : MotorChannel) (snap : Snapshot) (now : Nat) :
    Option (MotorChannel × Estimates) := do
  let est ← estimates N cfg c snap now
  return ({ c with prevPosition := snap.pos, lastLoopTime := now }, est)

/-- One step of one filter (R156): three products, summed left to right as written. -/
def lpfStep (N : Numerics) (cfg : Config) (f : FilterState) (raw : Num) : Option FilterState := do
  let p1 ← N .mul cfg.lpfA f.filteredVelocity
  let p2 ← N .mul cfg.lpfB raw
  let p3 ← N .mul cfg.lpfB f.prevRawVelocity
  let s12 ← N .add p1 p2
  let filtered ← N .add s12 p3
  return ⟨filtered, raw⟩

/-- `LPF` (R156): one step of each of the two filters. -/
def lpf (N : Numerics) (cfg : Config) (c : MotorChannel) (rpm1 rpm2 : Num) : Option MotorChannel := do
  let f1 ← lpfStep N cfg c.filter1 rpm1
  let f2 ← lpfStep N cfg c.filter2 rpm2
  return { c with filter1 := f1, filter2 := f2 }

end Sys2Proof.Machine
end

