-- ==== Sys2Proof/Machine/Output.lean ====
section
/-! DEFINITION. The Output Stage (spec 44_output_stage.md): the micro-operations `OUT` and `DIRSET`. -/

namespace Sys2Proof.Machine

/-- The duty of a control effort (R201): the clamp is applied to the unbounded rounded integer (R48), the
sign of `u` is discarded (R202). -/
def dutyOf (N : Numerics) (cfg : Config) (u : Num) : Option Nat :=
  (roundHu N |u|).map (fun pwr => min pwr cfg.outputClamp)

/-- `OUT` (R201). -/
def out (N : Numerics) (cfg : Config) (c : MotorChannel) (u : Num) : Option MotorChannel := do
  let pwr ← dutyOf N cfg u
  return { c with duty := BitVec.ofNat 8 pwr }

/-- `DIRSET` (R203): forward is `(1, 0)`, reverse is `(0, 1)`; another code writes nothing. -/
def dirset (c : MotorChannel) (dir : BitVec 2) : MotorChannel :=
  if dir = dirForward then { c with en1 := 1#1, en2 := 0#1 }
  else if dir = dirReverse then { c with en1 := 0#1, en2 := 1#1 }
  else c

end Sys2Proof.Machine
end

