-- ==== Sys2Proof/Machine/Pid.lean ====
section
/-! DEFINITION. The PID controller with anti-windup (spec 43_pid.md): the micro-operation `PID`, and the
discontinuity reset `PIDRST` (45_supervisor.md R218). -/

namespace Sys2Proof.Machine

/-- `integral_error` after steps 2 and 3 of R180: integrate inside the deadband, clamp always. -/
def nextIntegral (N : Numerics) (cfg : Config) (ie e dt : Num) : Option Num :=
  (if integrates cfg e then (N .mul e dt).bind (N .add ie) else some ie).map
    (fun x => clampNum x (-cfg.integralClamp) cfg.integralClamp)

/-- The control effort `u` of step 5 of R180, with the integral after step 3: three products, summed left to right. -/
def controlEffort (N : Numerics) (cfg : Config) (e ie deriv : Num) : Option Num := do
  let p ← N .mul cfg.kp e
  let i ← N .mul cfg.ki ie
  let d ← N .mul cfg.kd deriv
  let pi ← N .add p i
  N .add pi d

/-- `PID` (R180): one step of the controller; returns `u`. -/
def pid (N : Numerics) (cfg : Config) (c : MotorChannel) (eff filt dt : Num) : Option (MotorChannel × Num) := do
  let e ← N .sub eff filt
  let ie ← nextIntegral N cfg c.integralError e dt
  let change ← N .sub e c.prevError
  let deriv ← N .div change dt
  let u ← controlEffort N cfg e ie deriv
  return ({ c with integralError := ie, prevError := e }, u)

/-- `PIDRST` (R218): clears `integral_error` and `prev_error`, nothing else. -/
def pidrst (c : MotorChannel) : MotorChannel := { c with integralError := 0, prevError := 0 }

end Sys2Proof.Machine
end

