-- ==== Sys2Proof/Machine/Ramp.lean ====
section
/-! DEFINITION. The Ramp/Soft-Start Filter (spec 42_ramp.md): the micro-operation `RAMP`. -/

namespace Sys2Proof.Machine

/-- The new `smoothed_target` of R170: a full step towards the target, or the target itself within one step. -/
def rampTo (N : Numerics) (cfg : Config) (old target dt : Num) : Option Num := do
  let step ← N .mul cfg.rampRate dt
  let d ← N .sub target old
  if d > step then N .add old step
  else if d < -step then N .sub old step
  else some target

/-- `RAMP` (R170): writes `smoothed_target` and returns it as the effective target. -/
def ramp (N : Numerics) (cfg : Config) (c : MotorChannel) (target dt : Num) : Option (MotorChannel × Num) := do
  let eff ← rampTo N cfg c.smoothedTarget target dt
  return ({ c with smoothedTarget := eff }, eff)

end Sys2Proof.Machine
end

