-- ==== Sys2Proof/Machine/Supervisor.lean ====
section
/-! DEFINITION. The Direction/Reset Supervisor and the control loop (spec 45_supervisor.md): `LOOP`, and the
requests `STOP`, `FWD`, `REV`. -/

namespace Sys2Proof.Machine

/-- Steps 2 to 6 of `LOOP` (R219), given the snapshot of step 1: `VEST`, `LPF`, `RAMP`, `PID`, `OUT`, each
seeing the state the one before it left. -/
def loopAfterSnap (N : Numerics) (cfg : Config) (snap : Snapshot) (target : Nat) (now : Nat)
    (c : MotorChannel) : Option MotorChannel := do
  let (c, est) ← vest N cfg c snap now
  let c ← lpf N cfg c est.rpm1 est.rpm2
  let (c, eff) ← ramp N cfg c (targetNum target) est.dt
  let (c, u) ← pid N cfg c eff c.filter1.filteredVelocity est.dt
  out N cfg c u

/-- `LOOP` (R219): the snapshot, then the rest. -/
def loop (N : Numerics) (cfg : Config) (target : Nat) (now : Nat) (c : MotorChannel) : Option MotorChannel :=
  loopAfterSnap N cfg (readSnapshot c) target now c

/-- Steps 1 and 2 of `FWD` and `REV` (R216, R220): `DIRSET`, and `PIDRST` on a discontinuity. -/
def beforeLoop (cfg : Config) (dir : BitVec 2) (rpm : Nat) (c : MotorChannel) : MotorChannel :=
  let c := dirset c dir
  if discontinuity cfg c dir rpm then pidrst c else c

/-- Step 4 of `FWD` and `REV`: record `(direction, target)` as previous. -/
def recordCommand (dir : BitVec 2) (rpm : Nat) (c : MotorChannel) : MotorChannel :=
  { c with prevDirection := dir, prevCommandedTarget := BitVec.ofNat 9 rpm }

/-- A whole drive tick of one channel (R216, R220); none where the numerics is not finite (U6). -/
def driveTick (N : Numerics) (cfg : Config) (dir : BitVec 2) (rpm : Nat) (now : Nat)
    (c : MotorChannel) : Option MotorChannel :=
  (loop N cfg rpm now (beforeLoop cfg dir rpm c)).map (recordCommand dir rpm)

/-- A drive request: refused when the clock runs backwards (R216 corner (f), U3). -/
def driveRequest (dir : BitVec 2) (ch : Channel) (rpm : Nat) (s : State) :
    Host.Outcome State Fault Refusal :=
  if timeInOrder s.nowUs (s.chan ch).lastLoopTime then
    finishChannel ch s (driveTick s.config.num s.config dir rpm s.nowUs (s.chan ch))
  else .refused (.loopBeforeLastLoop ch)

/-- The writes of `STOP` (R217): the three outputs and the four bookkeeping fields, nothing else. -/
def stopChannel (c : MotorChannel) : MotorChannel :=
  { c with
    en1 := 0#1
    en2 := 0#1
    duty := 0#8
    integralError := 0
    prevError := 0
    prevCommandedTarget := 0#9
    prevDirection := dirStop }

/-- `STOP ch`, canonical code (R217). -/
def execStop (ch : Channel) (s : State) : Host.Outcome State Fault Refusal :=
  .next (s.setChan ch (stopChannel (s.chan ch)))

/-- `STOP ch` by code 3 (R101, R217). -/
def execStopCode3 (ch : Channel) (s : State) : Host.Outcome State Fault Refusal :=
  .next (s.setChan ch (stopChannel (s.chan ch)))

/-- `FWD ch, rpm` (R216). -/
def execFwd (ch : Channel) (rpm : Nat) (s : State) : Host.Outcome State Fault Refusal :=
  driveRequest dirForward ch rpm s

/-- `REV ch, rpm` (R220). -/
def execRev (ch : Channel) (rpm : Nat) (s : State) : Host.Outcome State Fault Refusal :=
  driveRequest dirReverse ch rpm s

end Sys2Proof.Machine
end

