-- ==== Sys2Proof/Machine/Dispatch.lean ====
section
/-! DEFINITION. The dispatch: one arm per constructor of `Instr`, one direct call of its meaning. -/

namespace Sys2Proof.Machine

def exec (i : Instr) (s : State) : Host.Outcome State Fault Refusal :=
  match i with
  | .stop ch _ => Sys2Proof.Machine.execStop ch s
  | .stopCode3 ch _ => Sys2Proof.Machine.execStopCode3 ch s
  | .fwd ch rpm => Sys2Proof.Machine.execFwd ch rpm s
  | .rev ch rpm => Sys2Proof.Machine.execRev ch rpm s
  | .edge ch => Sys2Proof.Machine.execEdge ch s
  | .snap ch => Sys2Proof.Machine.execSnap ch s
  | .rst => Sys2Proof.Machine.execRst s

end Sys2Proof.Machine
end

