-- ==== Sys2Proof/Machine/Fetch.lean ====
section
/-! DEFINITION. Accepting the next request of the trace (spec 20_memory.md R63, R64, R73; 30_encoding.md R92,
R100; 70_reset_and_hazards.md R295). The block fetches no instruction (R40, R77): the host presents one. -/

namespace Sys2Proof.Machine

/-- What accepting the next request gives. -/
inductive Accepted where
  /-- No request is presented: the block waits (R291). -/
  | idle
  /-- The request `i` is to be performed in the state `s`, its time sampled. -/
  | request (i : Instr) (s : State)
  /-- The trace entry is refused. -/
  | refused (r : Refusal)
deriving DecidableEq, Repr

/-- Accept the trace entry `r`, leaving `rest`: the time fits `TIME_W` bits (U2), does not decrease (U3), and
the word is a request (U5). -/
def acceptEntry (s : State) (r : Request) (rest : List Request) : Accepted :=
  if 2 ^ s.config.timeW ≤ r.now then .refused (.timeTooWide r.now)
  else if r.now < s.nowUs then .refused (.traceTimeDecreases r.now)
  else
    match decode r.word with
    | .ok i => .request i { s with nowUs := r.now, requests := rest }
    | .error why => .refused (.reservedWord why)

/-- Accept the next request of the trace, if there is one. -/
def acceptNext (s : State) : Accepted :=
  match s.requests with
  | [] => .idle
  | r :: rest => acceptEntry s r rest

/-- Present one more request to the block, before those still to come, at the time the clock shows. -/
def presentWord (s : State) (w : ReqWord) : State :=
  { s with requests := ⟨s.nowUs, w⟩ :: s.requests }

/-- Present a whole trace after the requests still to come. -/
def presentTrace (s : State) (rs : List Request) : State := { s with requests := s.requests ++ rs }

end Sys2Proof.Machine
end

