-- ==== Sys2Proof/Machine/Step.lean ====
section
/-! DEFINITION. One step of the machine: the next request of the trace, performed whole (R73). -/

namespace Sys2Proof.Machine

/-- One step: perform the next request; with no request presented the block waits and nothing changes. -/
def step (s : State) : Host.Outcome State Fault Refusal :=
  match acceptNext s with
  | .idle => .next s
  | .request i t => exec i t
  | .refused r => .refused r

/-- `s` with the request word `w` presented as its very next request. -/
def State.withFetchWord (s : State) (nbits w : Nat) : State := presentWord s (tableWord nbits w)

end Sys2Proof.Machine
end

