-- ==== Sys2Proof/Machine/Text.lean ====
section
/-! DEFINITION. Decimal numbers in text (spec 30_encoding.md R104, R110). -/

namespace Sys2Proof.Machine

/-- A natural number in decimal digits, most significant first (R110), no leading zeros. -/
def decimal (n : Nat) : Text :=
  if n = 0 then ['0'] else ((Nat.digits 10 n).map Nat.digitChar).reverse

/-- The value of a decimal digit character. -/
def digitValue (c : Char) : Nat := c.toNat - '0'.toNat

/-- The number a run of decimal digits writes; none for an empty text or one with another character. -/
def readDecimal (t : Text) : Option Nat :=
  if t ≠ [] ∧ t.all Char.isDigit then some (t.foldl (fun acc c => 10 * acc + digitValue c) 0) else none

/-- The pieces of a text between the characters `sep`. -/
def splitAtChar (sep : Char) : Text → List Text
  | [] => [[]]
  | c :: cs =>
    if c = sep then [] :: splitAtChar sep cs
    else
      match splitAtChar sep cs with
      | [] => [[c]]
      | p :: ps => (c :: p) :: ps

end Sys2Proof.Machine
end

