-- ==== Sys2Proof/Machine/Trace.lean ====
section
/-! DEFINITION. The trace syntax (spec 30_encoding.md R104 to R107; 45_supervisor.md R222): pseudo-requests,
assembler and disassembler. No rule of the block depends on it: the block is given request words. -/

namespace Sys2Proof.Machine

/-! ### Pseudo-requests (R105) -/

/-- `TICK ch, dir, rpm`: the format C word with the given fields. -/
def tickRequest (ch : Channel) (dir : BitVec 2) (rpm : Nat) : Instr := controlRequest ch dir rpm

/-- `CONTROL dL, rL, dR, rR`: `TICK M1, dL, rL` then `TICK M2, dR, rR` (R222), with L = M1 and R = M2 (R7). -/
def controlRequests (dL : BitVec 2) (rL : Nat) (dR : BitVec 2) (rR : Nat) : List Instr :=
  [tickRequest .m1 dL rL, tickRequest .m2 dR rR]

/-- A request of a trace line, with the pseudo-requests of R105. -/
inductive TraceRequest where
  | issue (i : Instr)
  | control (dL : BitVec 2) (rL : Nat) (dR : BitVec 2) (rR : Nat)
  | edges (ch : Channel) (n period : Nat)
deriving DecidableEq, Repr

/-- The time of a trace line (R104): the previous line's, an absolute value, or the previous plus an amount. -/
inductive LineTime where
  | same
  | absolute (t : Nat)
  | later (d : Nat)
deriving DecidableEq, Repr

/-- A trace line, its comment dropped. -/
structure TraceLine where
  time : LineTime
  request : TraceRequest
deriving DecidableEq, Repr

/-- The absolute time of a line after a line at time `prev`. -/
def lineTime (prev : Nat) : LineTime → Nat
  | .same => prev
  | .absolute t => t
  | .later d => prev + d

/-- `n` lines `@+period EDGE ch` after time `t`. -/
def edgeTrain (ch : Channel) (period : Nat) : Nat → Nat → List Request
  | _, 0 => []
  | t, n + 1 => ⟨t + period, encode (.edge ch)⟩ :: edgeTrain ch period (t + period) n

/-- The trace entries of a request at time `t`. -/
def requestEntries (t : Nat) : TraceRequest → List Request
  | .issue i => [⟨t, encode i⟩]
  | .control dL rL dR rR => (controlRequests dL rL dR rR).map (fun i => ⟨t, encode i⟩)
  | .edges ch n period => edgeTrain ch period t n

/-- The time of the last entry of a request at time `t`, which the next line's time is measured from. -/
def requestEnd (t : Nat) : TraceRequest → Nat
  | .issue _ => t
  | .control _ _ _ _ => t
  | .edges _ n period => t + n * period

/-- The trace entries of the lines after time `prev`; none where the times decrease (R104: not a trace). -/
def assembleFrom (prev : Nat) : List TraceLine → Option (List Request)
  | [] => some []
  | l :: ls =>
    let t := lineTime prev l.time
    if t < prev then none
    else (assembleFrom (requestEnd t l.request) ls).map (fun rs => requestEntries t l.request ++ rs)

/-! ### Text to lines (R104) -/

/-- A token of a trace line. -/
inductive Token where
  | word (t : Text)
  | comma
  | atSign
  | plus
deriving DecidableEq, Repr

/-- A finished word, if it has any character (`acc` holds it reversed). -/
def wordToken (acc : Text) : List Token := if acc = [] then [] else [.word acc.reverse]

/-- The tokens of a line, `acc` the word being read, reversed. Spaces separate; a `;` ends the line. -/
def tokensFrom (acc : Text) : Text → List Token
  | [] => wordToken acc
  | c :: cs =>
    if c = ';' then wordToken acc
    else if c = ' ' then wordToken acc ++ tokensFrom [] cs
    else if c = ',' then wordToken acc ++ (.comma :: tokensFrom [] cs)
    else if c = '@' then wordToken acc ++ (.atSign :: tokensFrom [] cs)
    else if c = '+' then wordToken acc ++ (.plus :: tokensFrom [] cs)
    else tokensFrom (c :: acc) cs

/-- A channel name, upper case (R104). -/
def readChannel (t : Text) : Option Channel :=
  if t = ['M', '1'] then some .m1 else if t = ['M', '2'] then some .m2 else none

/-- A target: decimal, 0 to 511 (R104). -/
def readRpm (t : Text) : Option Nat := (readDecimal t).bind (fun n => if rpmFits n then some n else none)

/-- A direction code of `TICK` and `CONTROL`: 0 to 3 (R105). -/
def readDir (t : Text) : Option (BitVec 2) :=
  (readDecimal t).bind (fun n => if n < 4 then some (BitVec.ofNat 2 n) else none)

/-- A request with one channel operand. -/
def readChannelRequest (m : Text) (ch : Channel) : Option TraceRequest :=
  if m = ['E', 'D', 'G', 'E'] then some (.issue (.edge ch))
  else if m = ['S', 'N', 'A', 'P'] then some (.issue (.snap ch))
  else if m = ['S', 'T', 'O', 'P'] then some (.issue (.stop ch 0))
  else none

/-- A request with a channel and a target. -/
def readDriveRequest (m : Text) (ch : Channel) (rpm : Nat) : Option TraceRequest :=
  if m = ['F', 'W', 'D'] then some (.issue (.fwd ch rpm))
  else if m = ['R', 'E', 'V'] then some (.issue (.rev ch rpm))
  else none

/-- A request with a channel and two numbers: `TICK` or `EDGES` (R105). -/
def readThreeOperands (m a b c : Text) : Option TraceRequest :=
  if m = ['T', 'I', 'C', 'K'] then do
    let ch ← readChannel a
    let dir ← readDir b
    let rpm ← readRpm c
    return .issue (tickRequest ch dir rpm)
  else if m = ['E', 'D', 'G', 'E', 'S'] then do
    let ch ← readChannel a
    let n ← readDecimal b
    let period ← readDecimal c
    return .edges ch n period
  else none

/-- `CONTROL dL, rL, dR, rR` (R105). -/
def readControl (m a b c d : Text) : Option TraceRequest :=
  if m = ['C', 'O', 'N', 'T', 'R', 'O', 'L'] then do
    let dL ← readDir a
    let rL ← readRpm b
    let dR ← readDir c
    let rR ← readRpm d
    return .control dL rL dR rR
  else none

/-- The request the tokens of a line write, its time removed. -/
def readRequest : List Token → Option TraceRequest
  | [.word m] => if m = ['R', 'S', 'T'] then some (.issue .rst) else none
  | [.word m, .word a] => (readChannel a).bind (readChannelRequest m)
  | [.word m, .word a, .comma, .word b] =>
    (readChannel a).bind (fun ch => (readRpm b).bind (readDriveRequest m ch))
  | [.word m, .word a, .comma, .word b, .comma, .word c] => readThreeOperands m a b c
  | [.word m, .word a, .comma, .word b, .comma, .word c, .comma, .word d] => readControl m a b c d
  | _ => none

/-- The line the tokens write (R104). -/
def readLineTokens : List Token → Option TraceLine
  | .atSign :: .plus :: .word t :: rest =>
    (readDecimal t).bind (fun d => (readRequest rest).map (fun r => ⟨.later d, r⟩))
  | .atSign :: .word t :: rest =>
    (readDecimal t).bind (fun a => (readRequest rest).map (fun r => ⟨.absolute a, r⟩))
  | rest => (readRequest rest).map (fun r => ⟨.same, r⟩)

/-- The line a text writes. -/
def readLine (t : Text) : Option TraceLine := readLineTokens (tokensFrom [] t)

/-- The trace the lines of a text write, the first line's default time 0 (R104). DESIGN CHOICE: a first line `@+d` has
no previous line, and its time is counted from that 0 (log entry 13). -/
def assemble (lines : List Text) : Option (List Request) := (lines.mapM readLine).bind (assembleFrom 0)

/-! ### Requests to text (R107) -/

/-- The name of a channel. -/
def channelName : Channel → Text
  | .m1 => ['M', '1']
  | .m2 => ['M', '2']

/-- `TICK ch, dir, rpm` as text. -/
def tickText (ch : Channel) (dir rpm : Nat) : Text :=
  ['T', 'I', 'C', 'K', ' '] ++ channelName ch ++ [',', ' '] ++ decimal dir ++ [',', ' '] ++ decimal rpm

/-- Disassembly (R107): `STOP ch` only for `dir` = 0 with `rpm` = 0; every other `STOP` word as `TICK`. -/
def disassemble : Instr → Text
  | .stop ch rpm => if rpm = 0 then ['S', 'T', 'O', 'P', ' '] ++ channelName ch else tickText ch 0 rpm
  | .stopCode3 ch rpm => tickText ch 3 rpm
  | .fwd ch rpm => ['F', 'W', 'D', ' '] ++ channelName ch ++ [',', ' '] ++ decimal rpm
  | .rev ch rpm => ['R', 'E', 'V', ' '] ++ channelName ch ++ [',', ' '] ++ decimal rpm
  | .edge ch => ['E', 'D', 'G', 'E', ' '] ++ channelName ch
  | .snap ch => ['S', 'N', 'A', 'P', ' '] ++ channelName ch
  | .rst => ['R', 'S', 'T']

end Sys2Proof.Machine
end

