-- ==== Sys2Proof/Machine/Link.lean ====
section
/-! DEFINITION. The command link (spec 30_encoding.md R110 to R116): the HOST's side, outside the block (R5).
No state of the device is here and `step` does not use it; it says which requests the link's collaborator
presents. -/

namespace Sys2Proof.Machine

/-- The decoded tuple `(dir_L, rpm_L, dir_R, rpm_R)`. -/
structure LinkCommand where
  dirL : Nat
  rpmL : Nat
  dirR : Nat
  rpmR : Nat
deriving DecidableEq, Repr

/-- The collaborator's state: the partial buffer, the last decoded tuple, and when (in milliseconds of
`monotonic_millis()`) the last valid frame came. -/
structure LinkState where
  buffer : Text
  command : LinkCommand
  lastValidMs : Nat
deriving DecidableEq, Repr

/-- Before any frame: an empty buffer and the all-zero tuple, which is stop; the window starts here (DESIGN CHOICE, log entry 14). -/
def linkStart (nowMs : Nat) : LinkState := ⟨[], ⟨0, 0, 0, 0⟩, nowMs⟩

/-- The number a field writes; a field that is no run of digits is left open (N14). -/
def linkField (t : Text) : Option Nat :=
  match readDecimal t with
  | some n => some n
  | none => Config.linkOddField t

/-- The direction the link delivers, in 0, 1, 2 (R114); what an out-of-range one is clamped to is open (N14). -/
def linkDir (n : Nat) : Nat := if n ≤ 2 then n else (Config.linkDirClamp n).val

/-- The target the link delivers, in 0 to 500 (R114). -/
def linkRpm (n : Nat) : Nat := min n Config.linkMaxRpm

/-- A frame without its terminator (R110): four comma-separated fields; a malformed comma structure is dropped
(R113). DESIGN CHOICE: what more or fewer than three commas do is open (N14), and the model drops every frame without
exactly three (log entry 14). -/
def parseFrame (frame : Text) : Option LinkCommand :=
  match splitAtChar ',' frame with
  | [a, b, c, d] => do
    let dL ← linkField a
    let rL ← linkField b
    let dR ← linkField c
    let rR ← linkField d
    return ⟨linkDir dL, linkRpm rL, linkDir dR, linkRpm rR⟩
  | _ => none

/-- The frame of a tuple, without its terminator (R110). -/
def frameText (c : LinkCommand) : Text :=
  decimal c.dirL ++ [','] ++ decimal c.rpmL ++ [','] ++ decimal c.dirR ++ [','] ++ decimal c.rpmR

/-- One received character (R110 to R113): carriage return and newline are ignored; `#` ends a frame, which
updates the decoded tuple if it is valid; a partial buffer over the limit is discarded. -/
def linkReceive (nowMs : Nat) (c : Char) (l : LinkState) : LinkState :=
  if c = '\r' ∨ c = '\n' then l
  else if c = '#' then
    match parseFrame l.buffer with
    | some cmd => ⟨[], cmd, nowMs⟩
    | none => { l with buffer := [] }
  else if Config.linkBufferLimit < l.buffer.length + 1 then { l with buffer := [] }
  else { l with buffer := l.buffer ++ [c] }

/-- The link is timed out (R115): no valid frame for more than the window. DESIGN CHOICE: width and wrap of
`monotonic_millis()` are open (R262), and the model's reading is a natural number that never wraps; a reading behind the
last valid frame's counts as no time passed, so not as timed out (log entry 14). -/
def linkTimedOut (cfg : Config) (nowMs : Nat) (l : LinkState) : Bool :=
  decide (cfg.commandTimeoutMs < nowMs - l.lastValidMs)

/-- The requests of one control tick (R115, R116): the tuple as it stands, or stop on both channels. -/
def linkTick (cfg : Config) (nowMs : Nat) (l : LinkState) : List Instr :=
  if linkTimedOut cfg nowMs l then [.stop .m1 0, .stop .m2 0]
  else controlRequests (BitVec.ofNat 2 l.command.dirL) l.command.rpmL
    (BitVec.ofNat 2 l.command.dirR) l.command.rpmR

end Sys2Proof.Machine
end

