-- ==== Sys2Proof/Machine/Ports.lean ====
section
/-! DEFINITION. The input ports (spec 20_memory.md R61 to R64, R72; 60_exceptions.md R252, R253, R268): which
agent issues a request, and the requests a sampled encoder signal causes. No state of the block is here and
`step` does not use it: the block is given the requests. -/

namespace Sys2Proof.Machine

/-- The agents that issue requests (R72): one encoder agent per channel, the loop agent, the reset agent. -/
inductive Agent where
  | encoder (ch : Channel)
  | loop
  | reset
deriving DecidableEq, Repr

/-- The agent that issues a request (R72): `EDGE ch` comes from the detector of `enc[ch]` and from nowhere else
(R268). -/
def agentOf : Instr → Agent
  | .stop _ _ => .loop
  | .stopCode3 _ _ => .loop
  | .fwd _ _ => .loop
  | .rev _ _ => .loop
  | .edge ch => .encoder ch
  | .snap _ => .loop
  | .rst => .reset

/-- The request arrives on the port `req` (R61, R64, R95): every request but `EDGE`. -/
def arrivesOnReq (i : Instr) : Bool :=
  match agentOf i with
  | .encoder _ => false
  | .loop => true
  | .reset => true

/-- A rising edge of `enc[ch]` (R62): from low to high; falling edges and the level cause nothing. -/
def risingEdge (before after : BitVec 1) : Bool := before == 0#1 && after == 1#1

/-- The `EDGE ch` requests that samples `(now, level)` of `enc[ch]` cause after the level `before`: one for each
rising edge, with the time its handler samples (R62, R63, R253). Log entry 15. -/
def encoderRequests (ch : Channel) (before : BitVec 1) : List (Nat × BitVec 1) → List Request
  | [] => []
  | (now, level) :: samples =>
    if risingEdge before level then ⟨now, encode (.edge ch)⟩ :: encoderRequests ch level samples
    else encoderRequests ch level samples

end Sys2Proof.Machine
end

