-- ==== Sys2Proof/Safety.lean ====
section
/-! DEFINITION. What counts as a sound state (spec 10_state.md R45 and the invariants the rules give) and as a
trace entry the block performs. -/

namespace Sys2Proof.Machine

/-- The Supervisor's state, the direction levels and the cleared fields of a stopped channel agree
(R36, R204, R223, R226). -/
def OutputsAgree (c : MotorChannel) : Prop :=
  (c.prevDirection = 0#2 ∧ c.en1 = 0#1 ∧ c.en2 = 0#1 ∧ c.duty = 0#8 ∧ c.integralError = 0 ∧
      c.prevError = 0 ∧ c.prevCommandedTarget = 0#9) ∨
    (c.prevDirection = 1#2 ∧ c.en1 = 1#1 ∧ c.en2 = 0#1) ∨
    (c.prevDirection = 2#2 ∧ c.en1 = 0#1 ∧ c.en2 = 1#1)

/-- The invariants of one channel that hold over any numerics (R29, R35, R37, R45; R24 and R32: widths), `now` the time
base. -/
structure ChannelInv (cfg : Config) (now : Nat) (c : MotorChannel) : Prop where
  position_fits : c.position < 2 ^ cfg.posW
  prevPosition_le : c.prevPosition ≤ c.position
  integral_bounded : |c.integralError| ≤ cfg.integralClamp
  duty_le : c.duty.toNat ≤ cfg.outputClamp
  outputs_agree : OutputsAgree c
  lastInterruptTime_le : c.lastInterruptTime ≤ now
  lastLoopTime_le : c.lastLoopTime ≤ now

/-- The invariants of one channel that rest on the laws of the reference numerics (R22, R31, R45, R150 corner (e), R156
corner (d), R170 corner (g)). -/
structure VelocityInv (cfg : Config) (c : MotorChannel) : Prop where
  interruptVelocity_nonneg : 0 ≤ c.interruptVelocity
  interruptVelocity_le : c.interruptVelocity ≤ 1000000 / (cfg.dtMinUs : Num)
  smoothedTarget_nonneg : 0 ≤ c.smoothedTarget
  smoothedTarget_le : c.smoothedTarget ≤ 511
  prevRaw1_nonneg : 0 ≤ c.filter1.prevRawVelocity
  prevRaw2_nonneg : 0 ≤ c.filter2.prevRawVelocity
  filtered_nonneg : 0 ≤ cfg.lpfA → 0 ≤ cfg.lpfB →
    0 ≤ c.filter1.filteredVelocity ∧ 0 ≤ c.filter2.filteredVelocity

/-- The invariant of the device: both channels, at the time base last presented, which fits `TIME_W` bits; in the
reference numerics the velocities' too. -/
structure State.Inv (s : State) : Prop where
  now_fits : s.nowUs < 2 ^ s.config.timeW
  channel : ∀ ch, ChannelInv s.config s.nowUs (s.chan ch)
  velocity : s.config.numerics = .exact → ∀ ch, VelocityInv s.config (s.chan ch)

/-- The host contract on one trace entry (R63, R80, R92, R100): its time fits and does not decrease, and its
word is a request. -/
def EntryConforms (s : State) (r : Request) : Prop :=
  r.now < 2 ^ s.config.timeW ∧ s.nowUs ≤ r.now ∧ ∃ i, decode r.word = .ok i

/-- No pulse of the request meets a full `position` counter (R24, U1). -/
def CanCount (s : State) (r : Request) : Prop :=
  ∀ ch, decode r.word = .ok (.edge ch) → (s.chan ch).position < 2 ^ s.config.posW - 1

/-- Numerics in which every operation is finite: the reference numerics are (R49, R300), another instance may be. -/
def NeverNonFinite (N : Numerics) : Prop := ∀ op a b, (N op a b).isSome = true

/-- Perform the request `i` sampled at time `now` (R73): the requests of a run, one by one. -/
def perform (now : Nat) (i : Instr) (s : State) : Host.Outcome State Fault Refusal :=
  exec i { s with nowUs := now }

end Sys2Proof.Machine
end

