-- ==== Sys2Proof/Certificates/Slice0/Obligations.lean ====
section
/-! DEFINITION. The statements for the provers. Each docstring names the rule of spec/ it formalises. -/

open Sys2Proof Sys2Proof.Machine

/-- The command is a discontinuity for the channel: another direction, or a jump of more than
`DIRECTION_RESET_THRESHOLD_RPM` (R216, R220). -/
abbrev Sys2Proof.Spec.Discontinuous (cfg : Config) (dir : BitVec 2) (rpm : Nat) (c : MotorChannel) : Prop :=
  c.prevDirection ≠ dir ∨
    cfg.directionResetThresholdRpm < max rpm c.prevCommandedTarget.toNat - min rpm c.prevCommandedTarget.toNat

/-- The elapsed time of R16 in seconds, exact: `max(now - last, DT_MIN_US) / 1000000`. -/
abbrev Sys2Proof.Spec.seconds (cfg : Config) (now last : Nat) : ℚ :=
  ((max (now - last) cfg.dtMinUs : ℕ) : ℚ) / 1000000

/-- The channel a drive tick leaves in the reference numerics, in one closed formula over the channel it finds (R216,
R220 with R219, R150, R156, R170, R180, R201, R203): `dir` the direction code, `e1` and `e2` the direction levels.
Written without the model's micro-operations; the ramp is R170's `clamp(d, -step, step)`. -/
def Sys2Proof.Spec.driveResult (cfg : Config) (now : Nat) (dir : BitVec 2) (e1 e2 : BitVec 1)
    (rpm : Nat) (c : MotorChannel) : MotorChannel :=
  let ie0 : ℚ := if Sys2Proof.Spec.Discontinuous cfg dir rpm c then 0 else c.integralError
  let pe0 : ℚ := if Sys2Proof.Spec.Discontinuous cfg dir rpm c then 0 else c.prevError
  let dt : ℚ := Sys2Proof.Spec.seconds cfg now c.lastLoopTime
  let rpm1 : ℚ := ((c.position - c.prevPosition : ℕ) : ℚ) / dt / cfg.pulsesPerRev * 60
  let rpm2 : ℚ := c.interruptVelocity / cfg.pulsesPerRev * 60
  let f1 : ℚ := cfg.lpfA * c.filter1.filteredVelocity + cfg.lpfB * rpm1 + cfg.lpfB * c.filter1.prevRawVelocity
  let f2 : ℚ := cfg.lpfA * c.filter2.filteredVelocity + cfg.lpfB * rpm2 + cfg.lpfB * c.filter2.prevRawVelocity
  let eff : ℚ := c.smoothedTarget +
    max (-(cfg.rampRate * dt)) (min (cfg.rampRate * dt) ((rpm : ℚ) - c.smoothedTarget))
  let e : ℚ := eff - f1
  let ie : ℚ := max (-cfg.integralClamp)
    (min cfg.integralClamp (if |e| < cfg.loopDeadbandRpm then ie0 + e * dt else ie0))
  let u : ℚ := cfg.kp * e + cfg.ki * ie + cfg.kd * ((e - pe0) / dt)
  { c with
    lastLoopTime := now
    prevPosition := c.position
    filter1 := ⟨f1, rpm1⟩
    filter2 := ⟨f2, rpm2⟩
    integralError := ie
    prevError := e
    smoothedTarget := eff
    prevCommandedTarget := BitVec.ofNat 9 rpm
    prevDirection := dir
    duty := BitVec.ofNat 8 (min ⌊|u| + 1 / 2⌋.toNat cfg.outputClamp)
    en1 := e1
    en2 := e2 }

/-- The same tick over any numerics `N` (R15): the operations of R150, R156, R170, R180 and R201 one by one, in the
order the rules write them; none where one of them is not finite (U6). What is no operation of `N` is exact
(log entry 7). -/
def Sys2Proof.Spec.driveOps (N : Numerics) (cfg : Config) (now : Nat) (dir : BitVec 2) (e1 e2 : BitVec 1)
    (rpm : Nat) (c : MotorChannel) : Option MotorChannel := do
  let ie0 : ℚ := if Sys2Proof.Spec.Discontinuous cfg dir rpm c then 0 else c.integralError
  let pe0 : ℚ := if Sys2Proof.Spec.Discontinuous cfg dir rpm c then 0 else c.prevError
  let dt ← N .div ((max (now - c.lastLoopTime) cfg.dtMinUs : ℕ) : ℚ) 1000000
  let v1 ← N .div ((c.position - c.prevPosition : ℕ) : ℚ) dt
  let r1 ← N .div v1 cfg.pulsesPerRev
  let rpm1 ← N .mul r1 60
  let r2 ← N .div c.interruptVelocity cfg.pulsesPerRev
  let rpm2 ← N .mul r2 60
  let a1 ← N .mul cfg.lpfA c.filter1.filteredVelocity
  let b1 ← N .mul cfg.lpfB rpm1
  let c1 ← N .mul cfg.lpfB c.filter1.prevRawVelocity
  let ab1 ← N .add a1 b1
  let f1 ← N .add ab1 c1
  let a2 ← N .mul cfg.lpfA c.filter2.filteredVelocity
  let b2 ← N .mul cfg.lpfB rpm2
  let c2 ← N .mul cfg.lpfB c.filter2.prevRawVelocity
  let ab2 ← N .add a2 b2
  let f2 ← N .add ab2 c2
  let step ← N .mul cfg.rampRate dt
  let d ← N .sub (rpm : ℚ) c.smoothedTarget
  let eff ← (if step < d then N .add c.smoothedTarget step
    else if d < -step then N .sub c.smoothedTarget step else some (rpm : ℚ))
  let e ← N .sub eff f1
  let sum ← (if |e| < cfg.loopDeadbandRpm then (N .mul e dt).bind (fun x => N .add ie0 x) else some ie0)
  let ie := min (max sum (-cfg.integralClamp)) cfg.integralClamp
  let de ← N .sub e pe0
  let deriv ← N .div de dt
  let p ← N .mul cfg.kp e
  let i ← N .mul cfg.ki ie
  let k ← N .mul cfg.kd deriv
  let pi ← N .add p i
  let u ← N .add pi k
  let half ← N .add |u| (1 / 2)
  return { c with
    lastLoopTime := now
    prevPosition := c.position
    filter1 := ⟨f1, rpm1⟩
    filter2 := ⟨f2, rpm2⟩
    integralError := ie
    prevError := e
    smoothedTarget := eff
    prevCommandedTarget := BitVec.ofNat 9 rpm
    prevDirection := dir
    duty := BitVec.ofNat 8 (min ⌊half⌋.toNat cfg.outputClamp)
    en1 := e1
    en2 := e2 }

/-- How a request of channel `ch` ends that computed the record `r`: with that record in place of the channel's and
nothing else changed, or, where its numerics was not finite, in the fault of U6. -/
def Sys2Proof.Spec.ended (s : State) (ch : Channel) (r : Option MotorChannel) : Host.Outcome State Fault Refusal :=
  match r with
  | some c => .next (s.setChan ch c)
  | none => .fault (.nonFinite ch)

/-- A channel with every field zero (R47, R290). -/
def Sys2Proof.Spec.zeroChannel : MotorChannel :=
  { position := 0, interruptVelocity := 0, lastInterruptTime := 0, lastLoopTime := 0, prevPosition := 0,
    filter1 := ⟨0, 0⟩, filter2 := ⟨0, 0⟩, integralError := 0, prevError := 0, smoothedTarget := 0,
    prevCommandedTarget := 0, prevDirection := 0, duty := 0, en1 := 0, en2 := 0 }

/-- A channel stopped by `STOP` (R217): the seven fields it writes, every other field as before. -/
def Sys2Proof.Spec.stopped (c : MotorChannel) : MotorChannel :=
  { c with en1 := 0, en2 := 0, duty := 0, integralError := 0, prevError := 0, prevCommandedTarget := 0,
           prevDirection := 0 }

/-! ### Encoding -/

/-- The decoder reads back every well-formed request from its word (R93, R94, R95, R99). -/
def Obligations.DecodeEncodeRoundTrip : Prop :=
  ∀ i : Instr, i.WellFormed → decode (encode i) = .ok i

/-- A word that decodes is the word of the request it decodes to: no bit of it is lost (R93, R94, R95). For a `STOP` word
this rests on the model's choice (log entry 12): the two rows of `STOP` are two constructors and both keep the `rpm`
field, which R107 prints and R99 drops. -/
def Obligations.DecodedWordIsTheEncoding : Prop :=
  ∀ (w : ReqWord) (i : Instr), decode w = .ok i → i.WellFormed ∧ encode i = w

/-- The decoder agrees with the opcode table's match and mask, and no word matches two rows (R95). -/
def Obligations.DecoderAgreesWithTheOpcodeTable : Prop :=
  (∀ (w : ReqWord) (i : Instr), decode w = .ok i → i.row ∈ opcodeTable ∧ w &&& i.row.mask = i.row.pattern) ∧
    (∀ (w : ReqWord) (r : TableRow), r ∈ opcodeTable → w &&& r.mask = r.pattern →
      ∃ i, decode w = .ok i ∧ i.row = r) ∧
    ∀ w : ReqWord, opcodeTable.Pairwise (fun r q => ¬ (w &&& r.mask = r.pattern ∧ w &&& q.mask = q.pattern))

/-- The example encodings of R97, both ways. -/
def Obligations.ExampleWordsEncodeAndDecode : Prop :=
  ∀ p ∈ ([(.stop .m1 0, 0x0000#16), (.stop .m2 0, 0x1000#16), (.fwd .m1 120, 0x0278#16),
      (.fwd .m1 500, 0x03F4#16), (.rev .m2 80, 0x1450#16), (.rev .m1 0, 0x0400#16),
      (.stopCode3 .m2 0, 0x1600#16), (.edge .m1, 0x2000#16), (.edge .m2, 0x3000#16), (.snap .m1, 0x4000#16),
      (.snap .m2, 0x5000#16), (.rst, 0x6000#16)] : List (Instr × ReqWord)),
    encode p.1 = p.2 ∧ decode p.2 = .ok p.1

/-- The reserved words are exactly R100's, and `step` refuses each (R100). -/
def Obligations.ReservedWordsAreRefused : Prop :=
  (∀ w : ReqWord, (∃ why, decode w = .error why) ↔
    (4 ≤ w.toNat / 8192 ∨ (w.toNat / 8192 = 0 ∧ w.toNat / 2048 % 2 = 1) ∨
      ((w.toNat / 8192 = 1 ∨ w.toNat / 8192 = 2) ∧ w.toNat % 4096 ≠ 0) ∨
      (w.toNat / 8192 = 3 ∧ w.toNat % 8192 ≠ 0))) ∧
    ∀ (s : State) (r : Request) (rest : List Request) (why : Reserved), s.requests = r :: rest →
      r.now < 2 ^ s.config.timeW → s.nowUs ≤ r.now → decode r.word = .error why →
      step s = .refused (.reservedWord why)

/-! ### The step -/

/-- A request in order, with a word the decoder reads, is performed as its meaning says, its time sampled and
the entry consumed (R73, R92). That every entry moves the time base held, `STOP`, `SNAP` and `RST` included, which do not
read the clock (R63), is the model's choice (log entry 4), and so is the list of requests held in State (log entry 3). -/
def Obligations.StepPerformsTheDecodedRequest : Prop :=
  ∀ (s : State) (r : Request) (rest : List Request) (i : Instr), s.requests = r :: rest →
    r.now < 2 ^ s.config.timeW → s.nowUs ≤ r.now → decode r.word = .ok i →
    step s = exec i { s with nowUs := r.now, requests := rest }

/-- A trace entry whose time does not fit, or fits and goes back, is refused (R92, R63; U2, U3). That the time is tested
before the word, and its width first, is the model's choice (log entry 9): it is the reason an entry gets that is wrong in
both. -/
def Obligations.StepRefusesTimesOutOfContract : Prop :=
  ∀ (s : State) (r : Request) (rest : List Request), s.requests = r :: rest →
    (2 ^ s.config.timeW ≤ r.now → step s = .refused (.timeTooWide r.now)) ∧
      (r.now < 2 ^ s.config.timeW → r.now < s.nowUs → step s = .refused (.traceTimeDecreases r.now))

/-- With no request presented the block waits, its state unchanged: the model's reading of R291 (log entry 3). -/
def Obligations.StepWaitsForARequest : Prop :=
  ∀ s : State, s.requests = [] → step s = .next s

/-! ### The Encoder Counter -/

/-- `EDGE` in the reference numerics counts the pulse, measures the velocity and samples the time, and writes nothing
else; it is refused where the clock is behind the last pulse, and faults at the top of `position` (R130; U1, U3). -/
def Obligations.EdgeCountsThePulse : Prop :=
  ∀ (s : State) (ch : Channel),
    (s.config.numerics = .exact → (s.chan ch).lastInterruptTime ≤ s.nowUs →
      (s.chan ch).position < 2 ^ s.config.posW - 1 →
      ∃ t, exec (.edge ch) s = .next t ∧
        t = s.setChan ch { s.chan ch with
          position := (s.chan ch).position + 1
          interruptVelocity := 1 / Sys2Proof.Spec.seconds s.config s.nowUs (s.chan ch).lastInterruptTime
          lastInterruptTime := s.nowUs } ∧
        (t.chan ch).interruptVelocity =
          1000000 / ((max (s.nowUs - (s.chan ch).lastInterruptTime) s.config.dtMinUs : ℕ) : ℚ) ∧
        0 < (t.chan ch).interruptVelocity ∧ (t.chan ch).interruptVelocity ≤ 1000000 / (s.config.dtMinUs : ℚ)) ∧
    (s.nowUs < (s.chan ch).lastInterruptTime → (s.chan ch).position < 2 ^ s.config.posW - 1 →
      exec (.edge ch) s = .refused (.edgeBeforeLastEdge ch)) ∧
    ((s.chan ch).lastInterruptTime ≤ s.nowUs → (s.chan ch).position = 2 ^ s.config.posW - 1 →
      exec (.edge ch) s = .fault (.positionOverflow ch))

/-- `EDGE` over any numerics (R15, R130): its two divisions in the order written; the pulse is counted with what they
give, or the request faults where one is not finite (U6). Over another numerics than the exact rationals this is the
model's choice (log entry 7): an instance of `NUM` is a function on rationals, and the literals 1 and 1000000 and the
converted time are exact in it. -/
def Obligations.EdgeOverAnyNumerics : Prop :=
  ∀ (s : State) (ch : Channel), (s.chan ch).lastInterruptTime ≤ s.nowUs →
    (s.chan ch).position < 2 ^ s.config.posW - 1 →
    exec (.edge ch) s = Sys2Proof.Spec.ended s ch (do
      let dt ← s.config.num .div ((max (s.nowUs - (s.chan ch).lastInterruptTime) s.config.dtMinUs : ℕ) : ℚ) 1000000
      let v ← s.config.num .div 1 dt
      return { s.chan ch with
        position := (s.chan ch).position + 1
        interruptVelocity := v
        lastInterruptTime := s.nowUs })

/-- The model's choice (log entry 9): where the clock is behind the last pulse, `EDGE` is refused for that whatever
`position` is. -/
def Obligations.EdgeTestsTheClockFirst : Prop :=
  ∀ (s : State) (ch : Channel), s.nowUs < (s.chan ch).lastInterruptTime →
    exec (.edge ch) s = .refused (.edgeBeforeLastEdge ch)

/-- A trace of `N` pulses of one channel, over numerics that are never non-finite, runs to its end and adds `N` to
`position`; in the reference numerics the velocity each pulse leaves is measured from the pulse before it, the first from
the stored time (R134: every prefix of the trace is such a trace). -/
def Obligations.PulsesAccumulate : Prop :=
  ∀ (s : State) (ch : Channel) (ts : List Nat), NeverNonFinite s.config.num →
    s.requests = ts.map (fun t => ⟨t, encode (.edge ch)⟩) →
    (∀ t ∈ ts, s.nowUs ≤ t ∧ t < 2 ^ s.config.timeW) → ts.Pairwise (· ≤ ·) →
    (s.chan ch).lastInterruptTime ≤ s.nowUs →
    (s.chan ch).position + ts.length < 2 ^ s.config.posW →
    ∃ t, Host.Core.run Sys2Proof.core ts.length s = .next t ∧
      (t.chan ch).position = (s.chan ch).position + ts.length ∧
      (s.config.numerics = .exact → ∀ (us : List Nat) (b : Nat), ts = us ++ [b] →
        (t.chan ch).interruptVelocity =
          1000000 / ((max (b - us.getLast?.getD (s.chan ch).lastInterruptTime) s.config.dtMinUs : ℕ) : ℚ))

/-- Of a sampled encoder signal, each step from low to high is counted exactly once; falling edges and levels cause
nothing (R62, R131). That the signal is a list of samples is the model's choice (log entry 15). Over numerics that are
never non-finite; over another than the exact rationals this rests on the model's choice of what a numerics is (log
entry 7). -/
def Obligations.EachRisingEdgeIsCountedOnce : Prop :=
  ∀ (s : State) (ch : Channel) (before : BitVec 1) (samples : List (Nat × BitVec 1)),
    NeverNonFinite s.config.num → s.requests = encoderRequests ch before samples →
    (∀ p ∈ samples, s.nowUs ≤ p.1 ∧ p.1 < 2 ^ s.config.timeW) → samples.Pairwise (fun p q => p.1 ≤ q.1) →
    (s.chan ch).lastInterruptTime ≤ s.nowUs →
    (s.chan ch).position + samples.length < 2 ^ s.config.posW →
    ∃ t, Host.Core.run Sys2Proof.core s.requests.length s = .next t ∧
      (t.chan ch).position = (s.chan ch).position +
        (((before :: samples.map Prod.snd).zip (samples.map Prod.snd)).filter (· = (0, 1))).length

/-- `SNAP` shows the pair on the snapshot ports and writes nothing else (R136). -/
def Obligations.SnapShowsThePair : Prop :=
  ∀ (s : State) (ch : Channel), exec (.snap ch) s =
    .next { s with snapPos := (s.chan ch).position, snapVel := (s.chan ch).interruptVelocity }

/-- The snapshot after a pulse pairs the new count with that same pulse's velocity, and a second snapshot
changes nothing (R69, R136 corners (b), (c)). -/
def Obligations.SnapshotIsOfOnePulse : Prop :=
  ∀ (s : State) (ch : Channel), s.config.numerics = .exact → (s.chan ch).lastInterruptTime ≤ s.nowUs →
    (s.chan ch).position < 2 ^ s.config.posW - 1 →
    ∃ t u, exec (.edge ch) s = .next t ∧ exec (.snap ch) t = .next u ∧
      u.snapPos = (s.chan ch).position + 1 ∧
      u.snapVel = 1000000 / ((max (s.nowUs - (s.chan ch).lastInterruptTime) s.config.dtMinUs : ℕ) : ℚ) ∧
      exec (.snap ch) u = .next u

/-! ### The Supervisor's requests -/

/-- `STOP`, by either code and whatever its `rpm` field, clears the outputs and the four bookkeeping fields and
leaves everything else as it was (R217, R226). -/
def Obligations.StopClearsOutputsAndBookkeeping : Prop :=
  ∀ (s : State) (ch : Channel) (rpm : Nat),
    exec (.stop ch rpm) s = .next (s.setChan ch (Sys2Proof.Spec.stopped (s.chan ch))) ∧
      exec (.stopCode3 ch rpm) s = .next (s.setChan ch (Sys2Proof.Spec.stopped (s.chan ch)))

/-- `STOP` on a channel that `STOP` has left changes nothing (R217 corners (a), (b)). -/
def Obligations.StopIsIdempotent : Prop :=
  ∀ (s : State) (ch : Channel) (rpm rpm' : Nat),
    ∃ t, exec (.stop ch rpm) s = .next t ∧ exec (.stop ch rpm') t = .next t ∧
      exec (.stopCode3 ch rpm') t = .next t

/-- `FWD` in the reference numerics performs the drive tick of R216 (with R219 and the micro-operations' rules), whole:
the channel's new record in closed form, nothing else changed; it is refused where the clock is behind the last
control-loop call (U3). -/
def Obligations.FwdPerformsTheDriveTick : Prop :=
  ∀ (s : State) (ch : Channel) (rpm : Nat), rpm < 512 →
    (s.config.numerics = .exact → (s.chan ch).lastLoopTime ≤ s.nowUs →
      exec (.fwd ch rpm) s =
        .next (s.setChan ch (Sys2Proof.Spec.driveResult s.config s.nowUs 1 1 0 rpm (s.chan ch)))) ∧
    (s.nowUs < (s.chan ch).lastLoopTime →
      exec (.fwd ch rpm) s = .refused (.loopBeforeLastLoop ch))

/-- `REV` in the reference numerics performs the drive tick of R220, whole: the channel's new record in closed form,
nothing else changed; it is refused where the clock is behind the last control-loop call (U3). -/
def Obligations.RevPerformsTheDriveTick : Prop :=
  ∀ (s : State) (ch : Channel) (rpm : Nat), rpm < 512 →
    (s.config.numerics = .exact → (s.chan ch).lastLoopTime ≤ s.nowUs →
      exec (.rev ch rpm) s =
        .next (s.setChan ch (Sys2Proof.Spec.driveResult s.config s.nowUs 2 0 1 rpm (s.chan ch)))) ∧
    (s.nowUs < (s.chan ch).lastLoopTime →
      exec (.rev ch rpm) s = .refused (.loopBeforeLastLoop ch))

/-- `FWD` and `REV` over any numerics (R15, R219): the tick's operations one by one in the order the rules write them,
and the fault of U6 where one is not finite. The chain of operations is R15's; what is no operation of it is the model's
choice (log entry 7): an instance of `NUM` is a function on rationals, and comparisons, min, max, abs, floor, the change
of sign, conversions and the literals, the 1/2 of `round_hu` among them, are exact in every instance. -/
def Obligations.DriveTickOverAnyNumerics : Prop :=
  ∀ (s : State) (ch : Channel) (rpm : Nat), rpm < 512 → (s.chan ch).lastLoopTime ≤ s.nowUs →
    exec (.fwd ch rpm) s = Sys2Proof.Spec.ended s ch
        (Sys2Proof.Spec.driveOps s.config.num s.config s.nowUs 1 1 0 rpm (s.chan ch)) ∧
      exec (.rev ch rpm) s = Sys2Proof.Spec.ended s ch
        (Sys2Proof.Spec.driveOps s.config.num s.config s.nowUs 2 0 1 rpm (s.chan ch))

/-- On a change of direction or a target jump of more than the threshold, the tick does not depend on the
`integral_error` and `prev_error` it finds: they are reset before the PID computation (R218). Over numerics that are
never non-finite; over another than the exact rationals this rests on the model's choice of what a numerics is (log
entry 7). -/
def Obligations.DiscontinuityDiscardsThePidState : Prop :=
  ∀ (s : State) (ch : Channel) (rpm : Nat) (x y : ℚ), NeverNonFinite s.config.num →
    (s.chan ch).lastLoopTime ≤ s.nowUs →
    (Sys2Proof.Spec.Discontinuous s.config 1 rpm (s.chan ch) → ∃ t, exec (.fwd ch rpm) s = .next t ∧
      exec (.fwd ch rpm) (s.setChan ch { s.chan ch with integralError := x, prevError := y }) = .next t) ∧
    (Sys2Proof.Spec.Discontinuous s.config 2 rpm (s.chan ch) → ∃ t, exec (.rev ch rpm) s = .next t ∧
      exec (.rev ch rpm) (s.setChan ch { s.chan ch with integralError := x, prevError := y }) = .next t)

/-- `REV` differs from `FWD` only in the direction levels and the code it records: on a channel whose recorded direction
is exchanged, it leaves what `FWD` leaves, but for those (R220). Over numerics that are never non-finite; over another
than the exact rationals this rests on the model's choice of what a numerics is (log entry 7). -/
def Obligations.ReverseMirrorsForward : Prop :=
  ∀ (s : State) (ch : Channel) (rpm : Nat) (d : BitVec 2), NeverNonFinite s.config.num →
    (s.chan ch).lastLoopTime ≤ s.nowUs → (d = 2 ↔ (s.chan ch).prevDirection = 1) →
    ∃ t, exec (.fwd ch rpm) s = .next t ∧
      exec (.rev ch rpm) (s.setChan ch { s.chan ch with prevDirection := d }) =
        .next (t.setChan ch { t.chan ch with prevDirection := 2, en1 := 0, en2 := 1 })

/-- Every drive tick moves `smoothed_target` by at most `RAMP_RATE * dt`, between the old value and the target,
and brings the distance down by a full step or to 0 (R171, in the reference numerics). -/
def Obligations.RampIsBoundedAndNeverOvershoots : Prop :=
  ∀ (s : State) (ch : Channel) (rpm : Nat) (i : Instr), i = .fwd ch rpm ∨ i = .rev ch rpm →
    s.config.numerics = .exact → (s.chan ch).lastLoopTime ≤ s.nowUs →
    ∃ t, exec i s = .next t ∧
      |(t.chan ch).smoothedTarget - (s.chan ch).smoothedTarget| ≤
        s.config.rampRate * Sys2Proof.Spec.seconds s.config s.nowUs (s.chan ch).lastLoopTime ∧
      min (s.chan ch).smoothedTarget rpm ≤ (t.chan ch).smoothedTarget ∧
      (t.chan ch).smoothedTarget ≤ max (s.chan ch).smoothedTarget rpm ∧
      |(rpm : ℚ) - (t.chan ch).smoothedTarget| = max (|(rpm : ℚ) - (s.chan ch).smoothedTarget| -
        s.config.rampRate * Sys2Proof.Spec.seconds s.config s.nowUs (s.chan ch).lastLoopTime) 0

/-! ### The micro-operations -/

/-- Anti-windup (R183, in the reference numerics; the two numbers 100 of the rule are `LOOP_DEADBAND_RPM` and
`INTEGRAL_CLAMP`): calls with an error at or beyond the deadband, however many, leave the integral unchanged; a smaller
non-zero error moves it by `e * dt` towards the bound of its sign, or to that bound, strictly unless it already is
there; a zero error leaves it; and the bound is never exceeded. -/
def Obligations.AntiWindupFreezesAndSaturates : Prop :=
  ∀ (cfg : Config) (c : MotorChannel), |c.integralError| ≤ cfg.integralClamp →
    (∀ calls : List (ℚ × ℚ × ℚ), (∀ p ∈ calls, cfg.loopDeadbandRpm ≤ |p.1 - p.2.1|) →
      ∃ d, calls.foldlM (fun x p => (pid exactNumerics cfg x p.1 p.2.1 p.2.2).map Prod.fst) c = some d ∧
        d.integralError = c.integralError) ∧
    ∀ eff filt dt : ℚ, 0 < dt → ∃ d u, pid exactNumerics cfg c eff filt dt = some (d, u) ∧
      |d.integralError| ≤ cfg.integralClamp ∧
      (eff = filt → d.integralError = c.integralError) ∧
      (0 < eff - filt → eff - filt < cfg.loopDeadbandRpm →
        d.integralError = min cfg.integralClamp (c.integralError + (eff - filt) * dt) ∧
        (c.integralError ≠ cfg.integralClamp → c.integralError < d.integralError)) ∧
      (eff - filt < 0 → -cfg.loopDeadbandRpm < eff - filt →
        d.integralError = max (-cfg.integralClamp) (c.integralError + (eff - filt) * dt) ∧
        (c.integralError ≠ -cfg.integralClamp → d.integralError < c.integralError))

/-- `OUT` writes the magnitude of `u` rounded to nearest, halves up, clamped to `OUTPUT_CLAMP`, and nothing else; the
sign of `u` is discarded (R201, R202, in the reference numerics). -/
def Obligations.DutyIsTheRoundedMagnitude : Prop :=
  ∀ (cfg : Config) (c : MotorChannel) (u : ℚ), ∃ d, out exactNumerics cfg c u = some d ∧
    out exactNumerics cfg c (-u) = some d ∧ d = { c with duty := d.duty } ∧
    (∀ n : ℕ, n < cfg.outputClamp → (n : ℚ) - 1 / 2 ≤ |u| → |u| < (n : ℚ) + 1 / 2 → d.duty.toNat = n) ∧
    ((cfg.outputClamp : ℚ) - 1 / 2 ≤ |u| → d.duty.toNat = cfg.outputClamp)

/-- With a constant raw input the filter converges to its gain times the input, to the input itself under
`LPF_UNITY`, and a filter at rest at the input stays there (R160, in the reference numerics). -/
def Obligations.FilterConvergesToItsGain : Prop :=
  ∀ (cfg : Config) (f : FilterState) (r : ℚ), 0 ≤ cfg.lpfA → cfg.lpfA < 1 →
    ∃ next : FilterState → FilterState, (∀ g, lpfStep exactNumerics cfg g r = some (next g)) ∧
      Filter.Tendsto (fun n : ℕ => (next^[n] f).filteredVelocity) Filter.atTop
        (nhds (2 * cfg.lpfB * r / (1 - cfg.lpfA))) ∧
      (cfg.LpfUnity → 2 * cfg.lpfB * r / (1 - cfg.lpfA) = r ∧ next ⟨r, r⟩ = ⟨r, r⟩)

/-- The coefficients of R8 have unit gain (R9). That the configuration after reset has them is the model's choice (log
entry 8). -/
def Obligations.DefaultCoefficientsHaveUnitGain : Prop :=
  Config.defaultLpfA + 2 * Config.defaultLpfB = 1 ∧ State.reset.config.lpfA = Config.defaultLpfA ∧
    State.reset.config.lpfB = Config.defaultLpfB ∧ State.reset.config.LpfUnity

/-- The reference numerics is finite in every operation (R49); that the machine after reset has it is the model's choice
(log entry 8). -/
def Obligations.ReferenceNumericsIsFinite : Prop :=
  NeverNonFinite exactNumerics ∧ State.reset.config.num = exactNumerics

/-- Every elapsed time is floored, so every divisor made from it is positive (R13, R16). -/
def Obligations.ElapsedTimeIsFloored : Prop :=
  ∀ (cfg : Config) (now last : Nat), last ≤ now →
    elapsedUs cfg now last = max (now - last) cfg.dtMinUs ∧ 1 ≤ elapsedUs cfg now last ∧
      ∃ dt, elapsedS exactNumerics cfg now last = some dt ∧ dt = (elapsedUs cfg now last : ℚ) / 1000000 ∧ 0 < dt

/-- A pulse commutes with the rest of a tick once its snapshot is taken, and with the steps before the snapshot (R74),
over any numerics: this is why a control tick may be taken as atomic. Over another numerics than the exact rationals it
rests on the model's choice of what a numerics is (log entry 7). -/
def Obligations.PulseCommutesWithTheRestOfATick : Prop :=
  ∀ (N : Numerics) (cfg : Config) (c : MotorChannel) (snap : Snapshot) (dir : BitVec 2) (rpm : Nat)
    (now later : Nat),
    (countPulse N cfg later c).bind
        (fun d => (loopAfterSnap N cfg snap rpm now d).map (recordCommand dir rpm)) =
      ((loopAfterSnap N cfg snap rpm now c).map (recordCommand dir rpm)).bind (countPulse N cfg later) ∧
      countPulse N cfg later (beforeLoop cfg dir rpm c) =
        (countPulse N cfg later c).map (beforeLoop cfg dir rpm) ∧
      driveTick N cfg dir rpm now c =
        (loopAfterSnap N cfg (readSnapshot c) rpm now (beforeLoop cfg dir rpm c)).map (recordCommand dir rpm)

/-! ### Reset -/

/-- After reset every field of both channels is zero (R47). -/
def Obligations.ResetStateIsAllZero : Prop :=
  ∀ ch, State.reset.chan ch = Sys2Proof.Spec.zeroChannel

/-- `RST` zeroes every field of both channels from any state, and changes neither the time base nor the
configuration (R290, R47). -/
def Obligations.RstZeroesBothChannels : Prop :=
  ∀ s : State, ∃ t, exec .rst s = .next t ∧ (∀ ch, t.chan ch = Sys2Proof.Spec.zeroChannel) ∧
    t.nowUs = s.nowUs ∧ t.config = s.config

/-- The model's choice (log entries 3 and 6): `RST` changes nothing but the channels, so the snapshot ports keep the
pair of the last `SNAP` and the requests to come stay. -/
def Obligations.RstLeavesThePorts : Prop :=
  ∀ s : State, exec .rst s =
    .next { s with m1 := Sys2Proof.Spec.zeroChannel, m2 := Sys2Proof.Spec.zeroChannel }

/-! ### The whole machine -/

/-- The reset state has the invariant (R45, R47). -/
def Obligations.ResetStateHasTheInvariant : Prop := State.reset.Inv

/-- Every step keeps the invariant: over any numerics the counts and times within their widths, the integral and the
duty within their bounds, the direction levels never both high and in agreement with the Supervisor's state, no
timestamp ahead of the time base; in the reference numerics also the velocities and the ramp within their ranges (R24,
R29, R32, R35, R45, R156 corner (d), R170 corner (g), R204). Over another numerics than the exact rationals it rests on
the model's choice of what a numerics is (log entry 7). -/
def Obligations.EveryStepKeepsTheInvariant : Prop :=
  ∀ s t : State, s.Inv → step s = .next t → t.Inv

/-- From a state with the invariant, over numerics that are never non-finite, a trace within the host contract (R63,
R80) whose pulses do not fill `position` is performed to its last request, and the invariant holds at its end (R295).
Over another numerics than the exact rationals it rests on the model's choice of what a numerics is (log entry 7). -/
def Obligations.ConformingTraceRunsToItsEnd : Prop :=
  ∀ s : State, s.Inv → NeverNonFinite s.config.num → s.requests.Pairwise (fun a b => a.now ≤ b.now) →
    (∀ r ∈ s.requests, s.nowUs ≤ r.now ∧ r.now < 2 ^ s.config.timeW ∧ ∃ i, decode r.word = .ok i) →
    (∀ ch, (s.chan ch).position + s.requests.length < 2 ^ s.config.posW) →
    ∃ t, Host.Core.run Sys2Proof.core s.requests.length s = .next t ∧ t.requests = [] ∧ t.Inv

/-- From a state with the invariant, over numerics that are never non-finite, a step performs the next trace entry
exactly when the entry is within the host contract (R63, R92, R100) and does not meet a full `position` counter (R24):
the block stops for nothing else (R250). Over another numerics than the exact rationals it rests on the model's choice
of what a numerics is (log entry 7). -/
def Obligations.StepPerformsExactlyConformingEntries : Prop :=
  ∀ (s : State) (r : Request) (rest : List Request), s.Inv → NeverNonFinite s.config.num → s.requests = r :: rest →
    ((∃ t, step s = .next t) ↔ EntryConforms s r ∧ CanCount s r)

/-- A request of one channel leaves the other channel, the configuration, the time base and the requests to come
as they were (R3, R45), and what it leaves in its own channel depends on nothing else of the device. -/
def Obligations.ChannelsAreIsolated : Prop :=
  ∀ (i : Instr) (ch : Channel), i.channel? = some ch →
    (∀ s t : State, exec i s = .next t → t.chan ch.other = s.chan ch.other ∧ t.config = s.config ∧
      t.nowUs = s.nowUs ∧ t.requests = s.requests) ∧
    ∀ s s' t : State, s.config = s'.config → s.nowUs = s'.nowUs → s.chan ch = s'.chan ch →
      exec i s = .next t → ∃ t', exec i s' = .next t' ∧ t'.chan ch = t.chan ch

/-- Requests of different channels commute on the channels, each keeping its own time (R79, R135, R222). -/
def Obligations.RequestsOfDifferentChannelsCommute : Prop :=
  ∀ (i j : Instr) (ch : Channel) (a b : Nat) (s t u : State),
    i.channel? = some ch → j.channel? = some ch.other →
    perform a i s = .next t → perform b j t = .next u →
    ∃ t' u', perform b j s = .next t' ∧ perform a i t' = .next u' ∧ ∀ c, u'.chan c = u.chan c

/-- The ownership of R20 and R261: a pulse or a snapshot writes no loop-domain, supervisor-domain or output
field; a control tick or a snapshot writes no interrupt-domain field. -/
def Obligations.EachContextWritesItsOwnDomain : Prop :=
  ∀ (i : Instr) (s t : State) (c : Channel), exec i s = .next t →
    ((∃ ch, i = .edge ch ∨ i = .snap ch) → t.chan c = { s.chan c with
      position := (t.chan c).position
      interruptVelocity := (t.chan c).interruptVelocity
      lastInterruptTime := (t.chan c).lastInterruptTime }) ∧
    ((∀ ch, i ≠ .edge ch) → i ≠ .rst → (t.chan c).position = (s.chan c).position ∧
      (t.chan c).interruptVelocity = (s.chan c).interruptVelocity ∧
      (t.chan c).lastInterruptTime = (s.chan c).lastInterruptTime)

/-- A step that does not perform `RST` never decreases `position`; no step writes the configuration or moves the
time base back (R8, R21, R45, R63). -/
def Obligations.PositionAndTimeNeverDecrease : Prop :=
  ∀ s t : State, step s = .next t → t.config = s.config ∧ s.nowUs ≤ t.nowUs ∧
    ((∀ r ∈ s.requests.head?, decode r.word ≠ .ok .rst) →
      ∀ ch, (s.chan ch).position ≤ (t.chan ch).position)

/-- R227's strong round trip is not a theorem: some state with the invariant, stopped and restarted, differs
in its ramp from a fresh start with the same target at the same time (conflict C2). -/
def Obligations.RestartAfterStopIsNotAFreshStart : Prop :=
  ∃ s t u v w : State, s.Inv ∧ exec (.stop .m1 0) s = .next t ∧ exec (.fwd .m1 400) t = .next u ∧
    exec .rst s = .next v ∧ exec (.fwd .m1 400) v = .next w ∧
    (u.chan .m1).smoothedTarget ≠ (w.chan .m1).smoothedTarget

/-! ### The trace syntax and the command link -/

/-- The disassembly of a well-formed request is read back as that request (R104, R105, R107). -/
def Obligations.DisassemblyIsReadBack : Prop :=
  ∀ i : Instr, i.WellFormed → readRequest (tokensFrom [] (disassemble i)) = some (.issue i)

/-- What the link delivers from any frame is in range, and it reads back the frame of every tuple in range
(R110, R114); what it reads in a field that is no number is left open. -/
def Obligations.LinkDeliversTuplesInRange : Prop :=
  (∀ (frame : Text) (c : LinkCommand), parseFrame frame = some c →
    c.dirL ≤ 2 ∧ c.rpmL ≤ 500 ∧ c.dirR ≤ 2 ∧ c.rpmR ≤ 500) ∧
  ∀ c : LinkCommand, c.dirL ≤ 2 → c.rpmL ≤ 500 → c.dirR ≤ 2 → c.rpmR ≤ 500 →
    parseFrame (frameText c) = some c

/-- A link timeout stops both motors: the requests the host then presents complete and leave both duties and all
direction levels at zero (R115, R254). That the window runs from the start of the link before any valid frame, that
exactly the window is no timeout, and that the millisecond clock never wraps is the model's choice (log entry 14). -/
def Obligations.LinkTimeoutStopsBothMotors : Prop :=
  ∀ (cfg : Config) (l : LinkState) (nowMs : Nat) (s : State), cfg.commandTimeoutMs < nowMs - l.lastValidMs →
    ∃ i j t u, linkTick cfg nowMs l = [i, j] ∧ exec i s = .next t ∧ exec j t = .next u ∧
      ∀ ch, u.pwmDuty ch = 0 ∧ u.dirEn1 ch = 0 ∧ u.dirEn2 ch = 0
end

