-- ==== Sys2Proof/Laws/Ops.lean ====
section
/-! SUPPORT. What each shared operation does, said once: over any numerics what it can write (if it answers some
record, then …), and in the reference numerics the value it answers. -/

namespace Sys2Proof.Machine

/-! ### Numerics (R13, R49) -/

@[simp] theorem exactNumerics_add (a b : Num) : exactNumerics .add a b = some (a + b) := rfl
@[simp] theorem exactNumerics_sub (a b : Num) : exactNumerics .sub a b = some (a - b) := rfl
@[simp] theorem exactNumerics_mul (a b : Num) : exactNumerics .mul a b = some (a * b) := rfl
@[simp] theorem exactNumerics_div (a b : Num) : exactNumerics .div a b = some (a / b) := rfl

theorem exactNumerics_isSome (op : NumOp) (a b : Num) : (exactNumerics op a b).isSome = true := by
  cases op <;> rfl

theorem num_eq_exactNumerics {cfg : Config} (h : cfg.numerics = .exact) : cfg.num = exactNumerics := by
  rw [Config.num, h]

/-- Two operations in a row are finite if each is. -/
theorem isSome_bind {α β : Type} {x : Option α} {f : α → Option β} (hx : x.isSome = true)
    (hf : ∀ a, (f a).isSome = true) : (x.bind f).isSome = true := by
  obtain ⟨a, rfl⟩ := Option.isSome_iff_exists.mp hx
  exact hf a

/-! ### Elapsed time (R16) -/

theorem one_le_elapsedUs (cfg : Config) (now last : Nat) : 1 ≤ elapsedUs cfg now last :=
  le_trans cfg.dtMinUs_pos (le_max_right _ _)

theorem dtMinUs_le_elapsedUs (cfg : Config) (now last : Nat) :
    cfg.dtMinUs ≤ elapsedUs cfg now last := le_max_right _ _

theorem elapsedS_exact (cfg : Config) (now last : Nat) :
    elapsedS exactNumerics cfg now last = some ((elapsedUs cfg now last : Num) / 1000000) := rfl

theorem seconds_pos (cfg : Config) (now last : Nat) : 0 < (elapsedUs cfg now last : Num) / 1000000 := by
  have h : (0 : Num) < (elapsedUs cfg now last : Num) := by
    exact_mod_cast one_le_elapsedUs cfg now last
  positivity

/-! ### The pure functions (R14, R48) -/

theorem clampNum_mem {lo hi : Num} (h : lo ≤ hi) (x : Num) : lo ≤ clampNum x lo hi ∧ clampNum x lo hi ≤ hi :=
  ⟨le_min (le_max_right _ _) h, min_le_right _ _⟩

theorem clampNum_symm {k : Num} (h : 0 ≤ k) (x : Num) : clampNum x (-k) k = max (-k) (min k x) := by
  rcases le_total x (-k) with hx | hx
  · rw [clampNum, max_eq_right hx, min_eq_left (by linarith), min_eq_right (by linarith), max_eq_left hx]
  · rw [clampNum, max_eq_left hx, min_comm, max_eq_right (le_min (by linarith) hx)]

theorem absDiff_comm (a b : Nat) : absDiff a b = absDiff b a := by
  rw [absDiff, absDiff, max_comm, min_comm]

/-! ### The tests (R16, R24, R180, R216) -/

@[simp] theorem timeInOrder_iff (now last : Nat) : timeInOrder now last = true ↔ last ≤ now :=
  decide_eq_true_iff

@[simp] theorem positionCanCount_iff (cfg : Config) (p : Nat) :
    positionCanCount cfg p = true ↔ p < 2 ^ cfg.posW - 1 :=
  decide_eq_true_iff

@[simp] theorem integrates_iff (cfg : Config) (e : Num) : integrates cfg e = true ↔ |e| < cfg.loopDeadbandRpm :=
  decide_eq_true_iff

@[simp] theorem discontinuity_iff (cfg : Config) (c : MotorChannel) (dir : BitVec 2) (rpm : Nat) :
    discontinuity cfg c dir rpm = true ↔
      c.prevDirection ≠ dir ∨ cfg.directionResetThresholdRpm < absDiff rpm c.prevCommandedTarget.toNat := by
  rw [discontinuity, Bool.or_eq_true, decide_eq_true_iff, decide_eq_true_iff]

/-! ### The pulse (R130) -/

theorem countPulse_some {N : Numerics} {cfg : Config} {now : Nat} {c d : MotorChannel}
    (h : countPulse N cfg now c = some d) :
    ∃ v, pulseVelocity N cfg now c.lastInterruptTime = some v ∧
      d = { c with position := c.position + 1, interruptVelocity := v, lastInterruptTime := now } := by
  simp only [countPulse, Option.bind_eq_bind, Option.bind_eq_some_iff, Option.pure_def, Option.some.injEq] at h
  obtain ⟨v, hv, rfl⟩ := h
  exact ⟨v, hv, rfl⟩

theorem pulseVelocity_exact (cfg : Config) (now last : Nat) :
    pulseVelocity exactNumerics cfg now last = some (1000000 / (elapsedUs cfg now last : Num)) := by
  simp [pulseVelocity, elapsedS_exact]

theorem countPulse_exact (cfg : Config) (now : Nat) (c : MotorChannel) :
    countPulse exactNumerics cfg now c = some { c with
      position := c.position + 1
      interruptVelocity := 1000000 / (elapsedUs cfg now c.lastInterruptTime : Num)
      lastInterruptTime := now } := by
  simp [countPulse, pulseVelocity_exact]

/-! ### The estimator and the filters (R150, R156) -/

theorem vest_some {N : Numerics} {cfg : Config} {c d : MotorChannel} {snap : Snapshot} {now : Nat}
    {est : Estimates} (h : vest N cfg c snap now = some (d, est)) :
    d = { c with prevPosition := snap.pos, lastLoopTime := now } ∧ estimates N cfg c snap now = some est := by
  simp only [vest, Option.bind_eq_bind, Option.bind_eq_some_iff, Option.pure_def, Option.some.injEq,
    Prod.mk.injEq] at h
  obtain ⟨e, he, rfl, rfl⟩ := h
  exact ⟨rfl, he⟩

theorem estimates_exact (cfg : Config) (c : MotorChannel) (snap : Snapshot) (now : Nat) :
    estimates exactNumerics cfg c snap now = some
      { dt := (elapsedUs cfg now c.lastLoopTime : Num) / 1000000
        rpm1 := pulseDelta snap.pos c.prevPosition / ((elapsedUs cfg now c.lastLoopTime : Num) / 1000000) /
          cfg.pulsesPerRev * 60
        rpm2 := snap.iv / cfg.pulsesPerRev * 60 } := rfl

theorem lpfStep_exact (cfg : Config) (f : FilterState) (raw : Num) :
    lpfStep exactNumerics cfg f raw = some
      ⟨cfg.lpfA * f.filteredVelocity + cfg.lpfB * raw + cfg.lpfB * f.prevRawVelocity, raw⟩ := rfl

theorem lpf_some {N : Numerics} {cfg : Config} {c d : MotorChannel} {rpm1 rpm2 : Num}
    (h : lpf N cfg c rpm1 rpm2 = some d) :
    ∃ f1 f2, lpfStep N cfg c.filter1 rpm1 = some f1 ∧ lpfStep N cfg c.filter2 rpm2 = some f2 ∧
      d = { c with filter1 := f1, filter2 := f2 } := by
  simp only [lpf, Option.bind_eq_bind, Option.bind_eq_some_iff, Option.pure_def, Option.some.injEq] at h
  obtain ⟨f1, h1, f2, h2, rfl⟩ := h
  exact ⟨f1, f2, h1, h2, rfl⟩

/-! ### The ramp (R170) -/

theorem ramp_some {N : Numerics} {cfg : Config} {c d : MotorChannel} {target dt eff : Num}
    (h : ramp N cfg c target dt = some (d, eff)) :
    rampTo N cfg c.smoothedTarget target dt = some eff ∧ d = { c with smoothedTarget := eff } := by
  simp only [ramp, Option.bind_eq_bind, Option.bind_eq_some_iff, Option.pure_def, Option.some.injEq,
    Prod.mk.injEq] at h
  obtain ⟨e, he, rfl, rfl⟩ := h
  exact ⟨he, rfl⟩

/-- The ramp's three branches are one clamp of the distance. -/
theorem rampTo_exact (cfg : Config) (old target : Num) {dt : Num} (h : 0 < dt) :
    rampTo exactNumerics cfg old target dt =
      some (old + max (-(cfg.rampRate * dt)) (min (cfg.rampRate * dt) (target - old))) := by
  have hs : 0 ≤ cfg.rampRate * dt := mul_nonneg cfg.rampRate_nonneg h.le
  simp only [rampTo, exactNumerics_mul, exactNumerics_sub, exactNumerics_add, Option.bind_eq_bind,
    Option.bind_some]
  split
  · next h1 => rw [min_eq_left h1.le, max_eq_right (by linarith)]
  · next h1 =>
    split
    · next h2 => rw [min_eq_right (by linarith), max_eq_left h2.le, ← sub_eq_add_neg]
    · next h2 => rw [min_eq_right (by linarith), max_eq_right (by linarith)]; congr 1; ring

/-! ### The PID (R180) -/

/-- The stored integral is within its bound, over any numerics (R182). -/
theorem nextIntegral_mem {N : Numerics} {cfg : Config} {ie e dt x : Num}
    (h : nextIntegral N cfg ie e dt = some x) : |x| ≤ cfg.integralClamp := by
  rw [nextIntegral, Option.map_eq_some_iff] at h
  obtain ⟨y, -, rfl⟩ := h
  exact abs_le.mpr (clampNum_mem (by linarith [cfg.integralClamp_nonneg]) y)

/-- The stored integral: the clamp of what step 2 of R180 leaves. -/
theorem nextIntegral_exact (cfg : Config) (ie e dt : Num) :
    nextIntegral exactNumerics cfg ie e dt = some (max (-cfg.integralClamp) (min cfg.integralClamp
      (if |e| < cfg.loopDeadbandRpm then ie + e * dt else ie))) := by
  rw [nextIntegral]
  by_cases h : |e| < cfg.loopDeadbandRpm
  · rw [if_pos ((integrates_iff _ _).mpr h), if_pos h, ← clampNum_symm cfg.integralClamp_nonneg]; rfl
  · rw [if_neg (fun hi => h ((integrates_iff _ _).mp hi)), if_neg h, ← clampNum_symm cfg.integralClamp_nonneg]; rfl

theorem controlEffort_exact (cfg : Config) (e ie deriv : Num) :
    controlEffort exactNumerics cfg e ie deriv = some (cfg.kp * e + cfg.ki * ie + cfg.kd * deriv) := rfl

theorem pid_some {N : Numerics} {cfg : Config} {c d : MotorChannel} {eff filt dt u : Num}
    (h : pid N cfg c eff filt dt = some (d, u)) :
    ∃ e ie, N .sub eff filt = some e ∧ nextIntegral N cfg c.integralError e dt = some ie ∧
      d = { c with integralError := ie, prevError := e } := by
  simp only [pid, Option.bind_eq_bind, Option.bind_eq_some_iff, Option.pure_def, Option.some.injEq,
    Prod.mk.injEq] at h
  obtain ⟨e, he, ie, hi, -, -, -, -, -, -, rfl, -⟩ := h
  exact ⟨e, ie, he, hi, rfl⟩

theorem pid_exact (cfg : Config) (c : MotorChannel) (eff filt dt : Num) :
    ∃ ie, nextIntegral exactNumerics cfg c.integralError (eff - filt) dt = some ie ∧
      pid exactNumerics cfg c eff filt dt = some ({ c with integralError := ie, prevError := eff - filt },
        cfg.kp * (eff - filt) + cfg.ki * ie + cfg.kd * ((eff - filt - c.prevError) / dt)) := by
  refine ⟨_, nextIntegral_exact cfg _ _ _, ?_⟩
  simp only [pid, nextIntegral_exact, controlEffort_exact, exactNumerics_sub, exactNumerics_div, Option.bind_eq_bind,
    Option.bind_some, Option.pure_def]

/-! ### The output stage (R201, R203) -/

theorem dutyOf_exact (cfg : Config) (u : Num) :
    dutyOf exactNumerics cfg u = some (min ⌊|u| + 1 / 2⌋.toNat cfg.outputClamp) := rfl

theorem out_some {N : Numerics} {cfg : Config} {c d : MotorChannel} {u : Num} (h : out N cfg c u = some d) :
    ∃ pwr, pwr ≤ cfg.outputClamp ∧ dutyOf N cfg u = some pwr ∧ d = { c with duty := BitVec.ofNat 8 pwr } := by
  simp only [out, Option.bind_eq_bind, Option.bind_eq_some_iff, Option.pure_def, Option.some.injEq] at h
  obtain ⟨pwr, hp, rfl⟩ := h
  refine ⟨pwr, ?_, hp, rfl⟩
  rw [dutyOf, Option.map_eq_some_iff] at hp
  obtain ⟨n, -, rfl⟩ := hp
  exact min_le_right _ _

/-- A duty that respects the clamp fits its register. -/
theorem duty_toNat {cfg : Config} {pwr : Nat} (h : pwr ≤ cfg.outputClamp) :
    (BitVec.ofNat 8 pwr : DutyWord).toNat = pwr := by
  have := cfg.outputClamp_le
  rw [BitVec.toNat_ofNat, Nat.mod_eq_of_lt (by omega)]

@[simp] theorem dirset_forward (c : MotorChannel) : dirset c 1#2 = { c with en1 := 1#1, en2 := 0#1 } := rfl
@[simp] theorem dirset_reverse (c : MotorChannel) : dirset c 2#2 = { c with en1 := 0#1, en2 := 1#1 } := rfl

/-! ### The loop and the tick (R216, R219, R220) -/

/-- The loop as one chain of its computations, then one write of every register (R219). -/
theorem loopAfterSnap_eq (N : Numerics) (cfg : Config) (snap : Snapshot) (target now : Nat) (c : MotorChannel) :
    loopAfterSnap N cfg snap target now c =
      (estimates N cfg c snap now).bind fun est =>
      (lpfStep N cfg c.filter1 est.rpm1).bind fun f1 =>
      (lpfStep N cfg c.filter2 est.rpm2).bind fun f2 =>
      (rampTo N cfg c.smoothedTarget target est.dt).bind fun eff =>
      (N .sub eff f1.filteredVelocity).bind fun e =>
      (nextIntegral N cfg c.integralError e est.dt).bind fun ie =>
      (N .sub e c.prevError).bind fun change =>
      (N .div change est.dt).bind fun deriv =>
      (controlEffort N cfg e ie deriv).bind fun u =>
      (dutyOf N cfg u).bind fun pwr =>
      some { c with
        lastLoopTime := now
        prevPosition := snap.pos
        filter1 := f1
        filter2 := f2
        integralError := ie
        prevError := e
        smoothedTarget := eff
        duty := BitVec.ofNat 8 pwr } := by
  have run : ∀ {α β γ : Type} (x : Option α) (f : α → Option β) (k : β → Option γ) (g : α → Option γ),
      (∀ a, (f a).bind k = g a) → (x.bind f).bind k = x.bind g := fun x f k g h => by
    rw [Option.bind_assoc]; exact congrArg x.bind (funext h)
  exact run _ _ _ _ fun est => run _ _ _ _ fun f1 => run _ _ _ _ fun f2 => run _ _ _ _ fun eff =>
    run _ _ _ _ fun e => run _ _ _ _ fun ie => run _ _ _ _ fun change => run _ _ _ _ fun deriv =>
    run _ _ _ _ fun u => rfl

/-- What the loop can do over any numerics: the registers it writes, the integral and the duty within their bounds. -/
theorem loopAfterSnap_some {N : Numerics} {cfg : Config} {snap : Snapshot} {target : Nat} {now : Nat}
    {c d : MotorChannel} (h : loopAfterSnap N cfg snap target now c = some d) :
    d = { c with
        lastLoopTime := now
        prevPosition := snap.pos
        filter1 := d.filter1
        filter2 := d.filter2
        integralError := d.integralError
        prevError := d.prevError
        smoothedTarget := d.smoothedTarget
        duty := d.duty } ∧
      |d.integralError| ≤ cfg.integralClamp ∧ d.duty.toNat ≤ cfg.outputClamp := by
  simp only [loopAfterSnap, Option.bind_eq_bind, Option.bind_eq_some_iff] at h
  obtain ⟨⟨c1, est⟩, h1, c2, h2, ⟨c3, eff⟩, h3, ⟨c4, u⟩, h4, h5⟩ := h
  obtain ⟨rfl, -⟩ := vest_some h1
  obtain ⟨f1, f2, -, -, rfl⟩ := lpf_some h2
  obtain ⟨-, rfl⟩ := ramp_some h3
  obtain ⟨e, ie, -, hi, rfl⟩ := pid_some h4
  obtain ⟨pwr, hp, -, rfl⟩ := out_some h5
  exact ⟨rfl, nextIntegral_mem hi, (duty_toNat hp).le.trans hp⟩

/-- Steps 1 and 2 of a drive tick touch at most the direction levels and the PID state (R203, R218). -/
theorem beforeLoop_eq (cfg : Config) (dir : BitVec 2) (rpm : Nat) (c : MotorChannel) :
    beforeLoop cfg dir rpm c =
      { c with
        en1 := (dirset c dir).en1
        en2 := (dirset c dir).en2
        integralError := if discontinuity cfg c dir rpm then 0 else c.integralError
        prevError := if discontinuity cfg c dir rpm then 0 else c.prevError } := by
  have hd : discontinuity cfg (dirset c dir) dir rpm = discontinuity cfg c dir rpm := by
    simp only [dirset]; split <;> [rfl; (split <;> rfl)]
  have hf : dirset c dir = { c with en1 := (dirset c dir).en1, en2 := (dirset c dir).en2 } := by
    simp only [dirset]; split <;> [rfl; (split <;> rfl)]
  simp only [beforeLoop, hd]
  cases discontinuity cfg c dir rpm
  · exact hf
  · simp only [if_true, pidrst]; rw [hf]

/-- What a drive tick can do over any numerics: the interrupt domain stays, the command is recorded, the direction
levels are `DIRSET`'s, the integral and the duty are within their bounds. -/
theorem driveTick_some {N : Numerics} {cfg : Config} {dir : BitVec 2} {rpm : Nat} {now : Nat}
    {c d : MotorChannel} (h : driveTick N cfg dir rpm now c = some d) :
    d = { c with
        lastLoopTime := now
        prevPosition := c.position
        filter1 := d.filter1
        filter2 := d.filter2
        integralError := d.integralError
        prevError := d.prevError
        smoothedTarget := d.smoothedTarget
        duty := d.duty
        en1 := (dirset c dir).en1
        en2 := (dirset c dir).en2
        prevDirection := dir
        prevCommandedTarget := BitVec.ofNat 9 rpm } ∧
      |d.integralError| ≤ cfg.integralClamp ∧ d.duty.toNat ≤ cfg.outputClamp := by
  simp only [driveTick, Option.map_eq_some_iff] at h
  obtain ⟨x, hx, rfl⟩ := h
  obtain ⟨hd, hi, hu⟩ := loopAfterSnap_some hx
  refine ⟨?_, hi, hu⟩
  rw [beforeLoop_eq] at hd
  rw [hd]
  rfl

/-- The record a drive tick leaves in the reference numerics, in one piece: every intermediate value of R219 named. -/
theorem driveTick_exact (cfg : Config) (dir : BitVec 2) (rpm : Nat) (now : Nat) (c : MotorChannel) :
    ∃ dt rpm1 rpm2 f1 eff ie, dt = (elapsedUs cfg now c.lastLoopTime : Num) / 1000000 ∧
      rpm1 = pulseDelta c.position c.prevPosition / dt / cfg.pulsesPerRev * 60 ∧
      rpm2 = c.interruptVelocity / cfg.pulsesPerRev * 60 ∧
      f1 = cfg.lpfA * c.filter1.filteredVelocity + cfg.lpfB * rpm1 + cfg.lpfB * c.filter1.prevRawVelocity ∧
      eff = c.smoothedTarget + max (-(cfg.rampRate * dt)) (min (cfg.rampRate * dt) ((rpm : Num) - c.smoothedTarget)) ∧
      ie = max (-cfg.integralClamp) (min cfg.integralClamp
        (if |eff - f1| < cfg.loopDeadbandRpm then
          (if discontinuity cfg c dir rpm then 0 else c.integralError) + (eff - f1) * dt
        else if discontinuity cfg c dir rpm then 0 else c.integralError)) ∧
      driveTick exactNumerics cfg dir rpm now c = some
        { c with
          lastLoopTime := now
          prevPosition := c.position
          filter1 := ⟨f1, rpm1⟩
          filter2 := ⟨cfg.lpfA * c.filter2.filteredVelocity + cfg.lpfB * rpm2 +
            cfg.lpfB * c.filter2.prevRawVelocity, rpm2⟩
          integralError := ie
          prevError := eff - f1
          smoothedTarget := eff
          duty := BitVec.ofNat 8 (min ⌊|cfg.kp * (eff - f1) + cfg.ki * ie + cfg.kd *
            ((eff - f1 - if discontinuity cfg c dir rpm then 0 else c.prevError) / dt)| + 1 / 2⌋.toNat cfg.outputClamp)
          en1 := (dirset c dir).en1
          en2 := (dirset c dir).en2
          prevDirection := dir
          prevCommandedTarget := BitVec.ofNat 9 rpm } := by
  refine ⟨_, _, _, _, _, _, rfl, rfl, rfl, rfl, rfl, rfl, ?_⟩
  have hp := seconds_pos cfg now c.lastLoopTime
  rw [driveTick, beforeLoop_eq]
  simp only [loop, loopAfterSnap, vest, lpf, ramp, pid, out, readSnapshot, targetNum, recordCommand, estimates_exact,
    lpfStep_exact, rampTo_exact cfg _ _ hp, nextIntegral_exact, controlEffort_exact, dutyOf_exact,
    exactNumerics_sub, exactNumerics_div, Option.bind_eq_bind, Option.bind_some, Option.pure_def, Option.map_some]

/-! ### Numerics in which every operation is finite end no run (R300) -/

section
variable {N : Numerics} (hN : ∀ op a b, (N op a b).isSome = true) (cfg : Config)
include hN

theorem countPulse_isSome (now : Nat) (c : MotorChannel) : (countPulse N cfg now c).isSome = true :=
  isSome_bind (isSome_bind (hN _ _ _) fun _ => hN _ _ _) fun _ => rfl

theorem loopAfterSnap_isSome (snap : Snapshot) (target : Nat) (now : Nat) (c : MotorChannel) :
    (loopAfterSnap N cfg snap target now c).isSome = true := by
  have filter : ∀ f raw, (lpfStep N cfg f raw).isSome = true := fun f raw =>
    isSome_bind (hN _ _ _) fun _ => isSome_bind (hN _ _ _) fun _ => isSome_bind (hN _ _ _) fun _ =>
      isSome_bind (hN _ _ _) fun _ => isSome_bind (hN _ _ _) fun _ => rfl
  have speed : ∀ pps, (toRpm N cfg pps).isSome = true := fun _ => isSome_bind (hN _ _ _) fun _ => hN _ _ _
  refine isSome_bind (isSome_bind (isSome_bind (hN _ _ _) fun _ => isSome_bind (hN _ _ _) fun _ =>
    isSome_bind (speed _) fun _ => isSome_bind (speed _) fun _ => rfl) fun _ => rfl) fun _ => ?_
  refine isSome_bind (isSome_bind (filter _ _) fun _ => isSome_bind (filter _ _) fun _ => rfl) fun _ => ?_
  refine isSome_bind (isSome_bind (isSome_bind (hN _ _ _) fun _ => isSome_bind (hN _ _ _) fun _ => ?_)
    fun _ => rfl) fun _ => ?_
  · split
    · exact hN _ _ _
    · split
      · exact hN _ _ _
      · rfl
  refine isSome_bind (isSome_bind (hN _ _ _) fun _ => isSome_bind ?_ fun _ =>
    isSome_bind (hN _ _ _) fun _ => isSome_bind (hN _ _ _) fun _ => isSome_bind ?_ fun _ => rfl) fun _ => ?_
  · rw [nextIntegral, Option.isSome_map]
    split
    · exact isSome_bind (hN _ _ _) fun _ => hN _ _ _
    · rfl
  · exact isSome_bind (hN _ _ _) fun _ => isSome_bind (hN _ _ _) fun _ => isSome_bind (hN _ _ _) fun _ =>
      isSome_bind (hN _ _ _) fun _ => hN _ _ _
  · refine isSome_bind ?_ fun _ => rfl
    rw [dutyOf, roundHu, Option.isSome_map, Option.isSome_map]
    exact hN _ _ _

theorem driveTick_isSome (dir : BitVec 2) (rpm : Nat) (now : Nat) (c : MotorChannel) :
    (driveTick N cfg dir rpm now c).isSome = true := by
  rw [driveTick, Option.isSome_map]
  exact loopAfterSnap_isSome hN cfg _ _ _ _

end

end Sys2Proof.Machine
end

