-- ==== Sys2Proof/Laws/State.lean ====
section
/-! SUPPORT. The small lemmas of State: one per field per update, and reading a channel after writing one. -/

namespace Sys2Proof.Machine

variable (s : State) (ch : Channel) (c d : MotorChannel)

@[simp] theorem State.setChan_config : (s.setChan ch c).config = s.config := by cases ch <;> rfl
@[simp] theorem State.setChan_snapPos : (s.setChan ch c).snapPos = s.snapPos := by cases ch <;> rfl
@[simp] theorem State.setChan_snapVel : (s.setChan ch c).snapVel = s.snapVel := by cases ch <;> rfl
@[simp] theorem State.setChan_nowUs : (s.setChan ch c).nowUs = s.nowUs := by cases ch <;> rfl
@[simp] theorem State.setChan_requests : (s.setChan ch c).requests = s.requests := by cases ch <;> rfl

@[simp] theorem State.setChan_m1_m1 : (s.setChan .m1 c).m1 = c := rfl
@[simp] theorem State.setChan_m1_m2 : (s.setChan .m1 c).m2 = s.m2 := rfl
@[simp] theorem State.setChan_m2_m1 : (s.setChan .m2 c).m1 = s.m1 := rfl
@[simp] theorem State.setChan_m2_m2 : (s.setChan .m2 c).m2 = c := rfl

@[simp] theorem State.chan_m1 : s.chan .m1 = s.m1 := rfl
@[simp] theorem State.chan_m2 : s.chan .m2 = s.m2 := rfl

@[simp] theorem State.chan_setChan_same : (s.setChan ch c).chan ch = c := by cases ch <;> rfl

@[simp] theorem State.chan_setChan_other : (s.setChan ch c).chan ch.other = s.chan ch.other := by
  cases ch <;> rfl

theorem State.chan_setChan_of_ne {ch e : Channel} (h : e ≠ ch) (s : State) (c : MotorChannel) :
    (s.setChan ch c).chan e = s.chan e := by
  cases ch <;> cases e <;> first | rfl | exact absurd rfl h

theorem State.chan_setChan (e : Channel) :
    (s.setChan ch c).chan e = if e = ch then c else s.chan e := by
  split
  · next h => subst h; simp
  · next h => exact State.chan_setChan_of_ne h s c

@[simp] theorem State.setChan_setChan_same : (s.setChan ch c).setChan ch d = s.setChan ch d := by
  cases ch <;> rfl

@[simp] theorem State.setChan_chan_self : s.setChan ch (s.chan ch) = s := by cases ch <;> rfl

theorem State.setChan_comm :
    (s.setChan ch c).setChan ch.other d = (s.setChan ch.other d).setChan ch c := by cases ch <;> rfl

/-- Updating anything but the two channel records leaves the channels as they were. -/
@[simp] theorem State.chan_mk (cfg : Config) (p : Nat) (v : Num) (now : Nat) (rs : List Request) :
    (State.mk cfg s.m1 s.m2 p v now rs).chan ch = s.chan ch := by cases ch <;> rfl

/-- Setting the time base commutes with writing a channel. -/
theorem State.setChan_withNow (now : Nat) :
    ({ s with nowUs := now } : State).setChan ch c = { s.setChan ch c with nowUs := now } := by
  cases ch <;> rfl

@[simp] theorem Channel.other_other : ch.other.other = ch := by cases ch <;> rfl

@[simp] theorem Channel.other_ne : ch.other ≠ ch := by cases ch <;> decide

theorem Channel.eq_or_eq_other (e : Channel) : e = ch ∨ e = ch.other := by
  cases ch <;> cases e <;> first | exact .inl rfl | exact .inr rfl

end Sys2Proof.Machine
end

