-- ==== Sys2Proof/Laws/Exec.lean ====
section
/-! SUPPORT. What a request and a step can do, said once: if it answers a next state, then one of these. -/

namespace Sys2Proof.Machine

theorem finishChannel_next {ch : Channel} {s t : State} {r : Option MotorChannel}
    (h : finishChannel ch s r = .next t) : ∃ c, r = some c ∧ t = s.setChan ch c := by
  cases r with
  | none => cases h
  | some c => exact ⟨c, rfl, by injection h with h; exact h.symm⟩

@[simp] theorem finishChannel_some (ch : Channel) (s : State) (c : MotorChannel) :
    finishChannel ch s (some c) = .next (s.setChan ch c) := rfl

@[simp] theorem finishChannel_none (ch : Channel) (s : State) :
    finishChannel ch s none = .fault (.nonFinite ch) := rfl

theorem execEdge_next {ch : Channel} {s t : State} (h : execEdge ch s = .next t) :
    (s.chan ch).lastInterruptTime ≤ s.nowUs ∧ (s.chan ch).position < 2 ^ s.config.posW - 1 ∧
      ∃ c, countPulse s.config.num s.config s.nowUs (s.chan ch) = some c ∧ t = s.setChan ch c := by
  simp only [execEdge] at h
  split at h
  · next h1 =>
    split at h
    · next h2 => exact ⟨by simpa using h1, by simpa using h2, finishChannel_next h⟩
    · cases h
  · cases h

theorem execEdge_of_le {ch : Channel} {s : State} (h1 : (s.chan ch).lastInterruptTime ≤ s.nowUs)
    (h2 : (s.chan ch).position < 2 ^ s.config.posW - 1) :
    execEdge ch s = finishChannel ch s (countPulse s.config.num s.config s.nowUs (s.chan ch)) := by
  simp [execEdge, h1, h2]

theorem driveRequest_next {dir : BitVec 2} {ch : Channel} {rpm : Nat} {s t : State}
    (h : driveRequest dir ch rpm s = .next t) :
    (s.chan ch).lastLoopTime ≤ s.nowUs ∧
      ∃ c, driveTick s.config.num s.config dir rpm s.nowUs (s.chan ch) = some c ∧ t = s.setChan ch c := by
  simp only [driveRequest] at h
  split at h
  · next h1 => exact ⟨by simpa using h1, finishChannel_next h⟩
  · cases h

theorem driveRequest_of_le {dir : BitVec 2} {ch : Channel} {s : State} (rpm : Nat)
    (h : (s.chan ch).lastLoopTime ≤ s.nowUs) :
    driveRequest dir ch rpm s =
      finishChannel ch s (driveTick s.config.num s.config dir rpm s.nowUs (s.chan ch)) := by
  simp [driveRequest, h]

/-- A drive request in order completes in numerics that are never non-finite. -/
theorem driveRequest_completes {dir : BitVec 2} {ch : Channel} {rpm : Nat} {s : State}
    (hN : ∀ op a b, (s.config.num op a b).isSome = true) (h : (s.chan ch).lastLoopTime ≤ s.nowUs) :
    ∃ t, driveRequest dir ch rpm s = .next t := by
  obtain ⟨d, hd⟩ := Option.isSome_iff_exists.mp (driveTick_isSome hN s.config dir rpm s.nowUs (s.chan ch))
  exact ⟨_, (driveRequest_of_le rpm h).trans (by rw [hd]; rfl)⟩

/-- The channel record a request of channel `ch` leaves; none where the numerics is not finite. -/
def afterRequest (cfg : Config) (now : Nat) (i : Instr) (c : MotorChannel) : Option MotorChannel :=
  match i with
  | .stop _ _ => some (stopChannel c)
  | .stopCode3 _ _ => some (stopChannel c)
  | .fwd _ rpm => driveTick cfg.num cfg dirForward rpm now c
  | .rev _ rpm => driveTick cfg.num cfg dirReverse rpm now c
  | .edge _ => countPulse cfg.num cfg now c
  | .snap _ => some c
  | .rst => some (resetChannel c)

/-- A request of a channel that answers a next state replaces that channel's record and, for `SNAP`, the
snapshot ports; it changes nothing else. -/
theorem exec_next_channel {i : Instr} {ch : Channel} {s t : State} (hi : i.channel? = some ch)
    (h : exec i s = .next t) :
    ∃ c p v, afterRequest s.config s.nowUs i (s.chan ch) = some c ∧
      t = { s.setChan ch c with snapPos := p, snapVel := v } := by
  have done : ∀ c, afterRequest s.config s.nowUs i (s.chan ch) = some c → t = s.setChan ch c →
      ∃ c p v, afterRequest s.config s.nowUs i (s.chan ch) = some c ∧
        t = { s.setChan ch c with snapPos := p, snapVel := v } := fun c hc ht =>
    ⟨c, s.snapPos, s.snapVel, hc, by rw [ht]; cases ch <;> rfl⟩
  cases i with
  | stop c r =>
    cases hi; cases h
    exact done _ rfl rfl
  | stopCode3 c r =>
    cases hi; cases h
    exact done _ rfl rfl
  | fwd c r =>
    cases hi
    obtain ⟨-, d, hd, rfl⟩ := driveRequest_next h
    exact done d hd rfl
  | rev c r =>
    cases hi
    obtain ⟨-, d, hd, rfl⟩ := driveRequest_next h
    exact done d hd rfl
  | edge c =>
    cases hi
    obtain ⟨-, -, d, hd, rfl⟩ := execEdge_next h
    exact done d hd rfl
  | snap c =>
    cases hi; cases h
    exact ⟨s.chan ch, (s.chan ch).position, (s.chan ch).interruptVelocity, rfl, by cases ch <;> rfl⟩
  | rst => cases hi

theorem execRst_next {s t : State} (h : exec .rst s = .next t) :
    t = { s with m1 := resetChannel s.m1, m2 := resetChannel s.m2 } := by
  cases h; rfl

/-- A trace entry in order, with a word the decoder reads, is accepted. -/
theorem acceptEntry_of_ok {s : State} {r : Request} {i : Instr} (rest : List Request) (h1 : r.now < 2 ^ s.config.timeW)
    (h2 : s.nowUs ≤ r.now) (h3 : decode r.word = .ok i) :
    acceptEntry s r rest = .request i { s with nowUs := r.now, requests := rest } := by
  rw [acceptEntry, if_neg (not_le.mpr h1), if_neg (not_lt.mpr h2), h3]

/-- What accepting a trace entry requires and gives. -/
theorem acceptEntry_request {s u : State} {r : Request} {rest : List Request} {i : Instr}
    (h : acceptEntry s r rest = .request i u) :
    r.now < 2 ^ s.config.timeW ∧ s.nowUs ≤ r.now ∧ decode r.word = .ok i ∧
      u = { s with nowUs := r.now, requests := rest } := by
  simp only [acceptEntry] at h
  split at h
  · cases h
  · next h1 =>
    split at h
    · cases h
    · next h2 =>
      split at h
      · next j hj =>
        injection h with e1 e2
        subst e1
        exact ⟨not_le.mp h1, not_lt.mp h2, hj, e2.symm⟩
      · cases h

/-- What a step that answers a next state did: it waited, or it performed one request. -/
theorem step_next {s t : State} (h : step s = .next t) :
    (s.requests = [] ∧ t = s) ∨
      ∃ r rest i, s.requests = r :: rest ∧ r.now < 2 ^ s.config.timeW ∧ s.nowUs ≤ r.now ∧
        decode r.word = .ok i ∧ exec i { s with nowUs := r.now, requests := rest } = .next t := by
  rcases hr : s.requests with _ | ⟨r, rest⟩
  · simp only [step, acceptNext, hr] at h
    exact .inl ⟨rfl, by injection h with h; exact h.symm⟩
  · right
    rcases ha : acceptEntry s r rest with _ | ⟨i, u⟩ | why
    · simp only [acceptEntry] at ha
      split at ha <;> [cases ha; (split at ha <;> [cases ha; (split at ha <;> cases ha)])]
    · obtain ⟨h1, h2, h3, rfl⟩ := acceptEntry_request ha
      refine ⟨r, rest, i, rfl, h1, h2, h3, ?_⟩
      simpa only [step, acceptNext, hr, ha] using h
    · simp only [step, acceptNext, hr, ha] at h
      cases h

end Sys2Proof.Machine
end

