-- ==== Sys2Proof/Laws/PerInstr.lean ====
section
/-! SUPPORT. The statements made per instruction: the word of every request matches its row of the opcode table
(R95). -/

namespace Sys2Proof

/-- A format C word under the format's mask is its `dir` code in its place (R93, R95). -/
theorem formatC_mask (ch : Channel) (dir : BitVec 2) (rpm : Nat) :
    formatC ch dir rpm &&& 0xEE00#16 = 0#3 ++ 0#1 ++ 0#1 ++ dir ++ 0#9 := by
  have mask : 0xEE00#16 = 7#3 ++ 0#1 ++ 1#1 ++ 3#2 ++ 0#9 := rfl
  have code : dir &&& 3#2 = dir := BitVec.and_allOnes
  rw [formatC, mask, BitVec.and_append, BitVec.and_append, BitVec.and_append, BitVec.and_append, BitVec.and_zero,
    BitVec.and_zero, code]
  rfl

/-- The request's word matches its row. -/
def Laws.MatchesItsRow.Statement (i : Instr) : Prop := (encode i) &&& i.row.mask = i.row.pattern

theorem Laws.MatchesItsRow.stop (ch : Channel) (rpm : Nat) : Laws.MatchesItsRow.Statement (.stop ch rpm) :=
  (formatC_mask ch 0#2 rpm).trans rfl

theorem Laws.MatchesItsRow.stopCode3 (ch : Channel) (rpm : Nat) :
    Laws.MatchesItsRow.Statement (.stopCode3 ch rpm) :=
  (formatC_mask ch 3#2 rpm).trans rfl

theorem Laws.MatchesItsRow.fwd (ch : Channel) (rpm : Nat) : Laws.MatchesItsRow.Statement (.fwd ch rpm) :=
  (formatC_mask ch 1#2 rpm).trans rfl

theorem Laws.MatchesItsRow.rev (ch : Channel) (rpm : Nat) : Laws.MatchesItsRow.Statement (.rev ch rpm) :=
  (formatC_mask ch 2#2 rpm).trans rfl

theorem Laws.MatchesItsRow.edge (ch : Channel) : Laws.MatchesItsRow.Statement (.edge ch) := by
  cases ch <;> rfl

theorem Laws.MatchesItsRow.snap (ch : Channel) : Laws.MatchesItsRow.Statement (.snap ch) := by
  cases ch <;> rfl

theorem Laws.MatchesItsRow.rst : Laws.MatchesItsRow.Statement .rst := rfl

end Sys2Proof
end

