-- ==== Sys2Proof/Tests/Slice0.lean ====
section
/-! SUPPORT. The model's own tests. Expected values are those of spec/95_test_vectors.md (or of the rule named),
computed there by exact fractions; words are written out from the layouts of R93 and R94. The last part shows, for
every statement with hypotheses, concrete values that meet them. -/

namespace Sys2Proof.Tests

-- One declaration after another: each test's kernel evaluation would else wait in a thread of its own.
set_option Elab.async false

open Sys2Proof.Machine

/-! ### Helpers -/

/-- CFG_T of spec/95_test_vectors.md section 2. -/
def cfgT : Config :=
  { kp := 1, ki := 10, kd := 1 / 100, rampRate := 500, pulsesPerRev := 250,
    allowed := by norm_num [ConfigFields.Allowed] }

/-- CFG_S of spec/95_test_vectors.md section 2. -/
def cfgS : Config :=
  { kp := 1 / 2, ki := 4, kd := 1 / 100, rampRate := 5000, pulsesPerRev := 60, lpfA := 1 / 2, lpfB := 1 / 4,
    allowed := by norm_num [ConfigFields.Allowed] }

/-- CFG_T with other values of the fields that R8 fixes: a two-bit `position`, a three-bit clock, and other thresholds. -/
def cfgNarrow : Config :=
  { kp := 1, ki := 10, kd := 1 / 100, rampRate := 500, pulsesPerRev := 250, loopDeadbandRpm := 10,
    integralClamp := 2, outputClamp := 20, directionResetThresholdRpm := 5, commandTimeoutMs := 7, posW := 2, timeW := 3,
    allowed := by norm_num [ConfigFields.Allowed] }

/-- Numerics in which nothing is finite: every rule's computation ends in U6. -/
def neverFinite : Numerics := fun _ _ _ => none

/-- A device with the channel M1 as given, M2 as after reset, at time `now`. -/
def device (cfg : Config) (now : Nat) (c : MotorChannel) : State :=
  { config := cfg, m1 := c, m2 := MotorChannel.reset, snapPos := 0, snapVel := 0, nowUs := now, requests := [] }

/-- The channel after reset. -/
abbrev zero : MotorChannel := MotorChannel.reset

/-- The outcome is a next state with the property. -/
def goesTo (o : Host.Outcome State Fault Refusal) (p : State → Bool) : Bool :=
  match o with
  | .next t => p t
  | .fault _ => false
  | .refused _ => false

/-- The outcome is the fault. -/
def faultsWith (o : Host.Outcome State Fault Refusal) (f : Fault) : Bool :=
  match o with
  | .next _ => false
  | .fault g => g == f
  | .refused _ => false

/-- The outcome is the refusal. -/
def refusedWith (o : Host.Outcome State Fault Refusal) (r : Refusal) : Bool :=
  match o with
  | .next _ => false
  | .fault _ => false
  | .refused q => q == r

/-- The word decodes to the request. -/
def decodesTo (w : ReqWord) (i : Instr) : Bool :=
  match decode w with
  | .ok j => j == i
  | .error _ => false

/-- The word is reserved, for the reason. -/
def reservedFor (w : ReqWord) (why : Reserved) : Bool :=
  match decode w with
  | .ok _ => false
  | .error r => r == why

/-! ### WellFormed: each check refuses an ill-formed request (R93: 9 bits) -/

theorem test_wellFormed_refuses_stop_512 : (Instr.stop .m1 512).wellFormed = false := by decide
theorem test_wellFormed_refuses_stopCode3_512 : (Instr.stopCode3 .m1 512).wellFormed = false := by decide
theorem test_wellFormed_refuses_fwd_512 : (Instr.fwd .m2 512).wellFormed = false := by decide
theorem test_wellFormed_refuses_rev_512 : (Instr.rev .m2 512).wellFormed = false := by decide
theorem test_hostConforming_refuses_501 : (Instr.fwd .m1 501).hostConforming = false := by decide

/-- The fields of CFG_T (R8's defaults for the rest). -/
def fieldsT : ConfigFields := { kp := 1, ki := 10, kd := 1 / 100, rampRate := 500, pulsesPerRev := 250 }

/-- U9, U12: a negative ramp rate, a zero `PULSES_PER_REV` and a zero floor build no configuration; nor do an empty
clamp range (R14) and a largest duty over eight bits. -/
theorem test_config_refused :
    Config.make? { fieldsT with rampRate := -1 } = none ∧ Config.make? { fieldsT with pulsesPerRev := 0 } = none ∧
      Config.make? { fieldsT with dtMinUs := 0 } = none ∧ Config.make? { fieldsT with integralClamp := -1 } = none ∧
      Config.make? { fieldsT with outputClamp := 256 } = none := by decide +kernel

theorem test_config_built : Config.make? fieldsT = some cfgT ∧
    (Config.make? { fieldsT with rampRate := 0, integralClamp := 0, outputClamp := 255 }).isSome = true := by
  decide +kernel

/-! ### Decode: words written out bit by bit (kind, ch, z, dir, rpm; kind, ch, zero) -/

/-- STOP, `dir` 0, the `rpm` field kept: 0x0000, 0x1000, 0x01F4. -/
theorem test_decode_stop : decodesTo 0b000_0_0_00_000000000#16 (.stop .m1 0) = true ∧
    decodesTo 0b000_1_0_00_000000000#16 (.stop .m2 0) = true ∧
    decodesTo 0b000_0_0_00_111110100#16 (.stop .m1 500) = true := by decide

/-- STOP, `dir` 3: 0x0600, 0x1600, 0x07F4. -/
theorem test_decode_stopCode3 : decodesTo 0b000_0_0_11_000000000#16 (.stopCode3 .m1 0) = true ∧
    decodesTo 0b000_1_0_11_000000000#16 (.stopCode3 .m2 0) = true ∧
    decodesTo 0b000_0_0_11_111110100#16 (.stopCode3 .m1 500) = true := by decide

/-- FWD: 0x0278, 0x132C, 0x03FF. -/
theorem test_decode_fwd : decodesTo 0b000_0_0_01_001111000#16 (.fwd .m1 120) = true ∧
    decodesTo 0b000_1_0_01_100101100#16 (.fwd .m2 300) = true ∧
    decodesTo 0b000_0_0_01_111111111#16 (.fwd .m1 511) = true := by decide

/-- REV: 0x0400, 0x1450. -/
theorem test_decode_rev : decodesTo 0b000_0_0_10_000000000#16 (.rev .m1 0) = true ∧
    decodesTo 0b000_1_0_10_001010000#16 (.rev .m2 80) = true := by decide

/-- EDGE: 0x2000, 0x3000. -/
theorem test_decode_edge : decodesTo 0b001_0_000000000000#16 (.edge .m1) = true ∧
    decodesTo 0b001_1_000000000000#16 (.edge .m2) = true := by decide

/-- SNAP: 0x4000, 0x5000. -/
theorem test_decode_snap : decodesTo 0b010_0_000000000000#16 (.snap .m1) = true ∧
    decodesTo 0b010_1_000000000000#16 (.snap .m2) = true := by decide

/-- RST: 0x6000. -/
theorem test_decode_rst : decodesTo 0b011_0_000000000000#16 .rst = true := by decide

/-- The reserved words of spec/95_test_vectors.md section 3. -/
theorem test_decode_reserved : reservedFor 0x0800#16 .zBit = true ∧ reservedFor 0x0A78#16 .zBit = true ∧
    reservedFor 0x2001#16 .zeroField = true ∧ reservedFor 0x4800#16 .zeroField = true ∧
    reservedFor 0x7000#16 .resetBits = true ∧ reservedFor 0x6001#16 .resetBits = true ∧
    reservedFor 0x8000#16 .kind = true ∧ reservedFor 0xA000#16 .kind = true ∧
    reservedFor 0xC000#16 .kind = true ∧ reservedFor 0xE000#16 .kind = true ∧
    reservedFor 0xFFFF#16 .kind = true := by decide

/-- The host's reading of the table: a 16-bit row, and lengths no request has, longer and shorter (R92). -/
theorem test_decodeTableWord : decodeTableWord 16 0x1450 = some (.rev .m2 80) ∧
    decodeTableWord 16 0x7000 = none ∧ decodeTableWord 24 0x1450 = none ∧ decodeTableWord 15 0 = none ∧
    decodeTableWord 8 0 = none ∧ decodeTableWord 0 0 = none := by decide

/-! ### One step of each request -/

/-- `STOP` (section 4.8): the four fields and the outputs are cleared; ramp and filter kept. -/
theorem test_stop_clears_only_its_fields :
    goesTo (exec (.stop .m1 0) (device cfgS 60000
        { zero with integralError := 12, prevError := -3, prevCommandedTarget := 120, prevDirection := 2,
                    duty := 77, en2 := 1, smoothedTarget := 60, filter1 := ⟨55, 54⟩ }))
      (fun t => t == device cfgS 60000 { zero with smoothedTarget := 60, filter1 := ⟨55, 54⟩ }) = true := by
  decide +kernel

/-- `TICK ch, 3, 100` (section 4.8) is a `STOP`. -/
theorem test_stopCode3_is_stop :
    goesTo (exec (.stopCode3 .m1 100) (device cfgS 0
        { zero with prevCommandedTarget := 100, prevDirection := 1, en1 := 1, duty := 9 }))
      (fun t => t == device cfgS 0 zero) = true := by decide +kernel

/-- `FWD M1, 120` at 10000 µs after two pulses, CFG_T (the example of R216; program P2, tick 1). -/
theorem test_fwd_first_tick :
    goesTo (exec (.fwd .m1 120) (device cfgT 10000
        { zero with position := 2, interruptVelocity := 250, lastInterruptTime := 8000 }))
      (fun t => t == device cfgT 10000
        { position := 2, interruptVelocity := 250, lastInterruptTime := 8000, lastLoopTime := 10000,
          prevPosition := 2, filter1 := ⟨2184 / 625, 48⟩, filter2 := ⟨546 / 125, 60⟩,
          integralError := 941 / 62500, prevError := 941 / 625, smoothedTarget := 5,
          prevCommandedTarget := 120, prevDirection := 1, duty := 3, en1 := 1, en2 := 0 }) = true := by
  decide +kernel

/-- `FWD` with `abs(e) = 100` and a jump of 20 keeps the integral frozen (program P3, 30000 µs, CFG_S). -/
theorem test_fwd_held_direction :
    goesTo (exec (.fwd .m1 320) (device cfgS 30000
        { zero with lastLoopTime := 20000, integralError := 1 / 2, prevError := 100, smoothedTarget := 100,
                    prevCommandedTarget := 300, prevDirection := 1, duty := 102, en1 := 1 }))
      (fun t => t == device cfgS 30000
        { zero with lastLoopTime := 30000, integralError := 1 / 2, prevError := 150, smoothedTarget := 150,
                    prevCommandedTarget := 320, prevDirection := 1, duty := 127, en1 := 1 }) = true := by
  decide +kernel

/-- `REV 400` after `FWD 400` (program P3, 50000 µs, CFG_S): reset, ramp carried over, duty clamped. -/
theorem test_rev_reverses :
    goesTo (exec (.rev .m1 400) (device cfgS 50000
        { zero with lastLoopTime := 40000, prevError := 200, smoothedTarget := 200,
                    prevCommandedTarget := 400, prevDirection := 1, duty := 254, en1 := 1 }))
      (fun t => t == device cfgS 50000
        { zero with lastLoopTime := 50000, prevError := 250, smoothedTarget := 250,
                    prevCommandedTarget := 400, prevDirection := 2, duty := 254, en2 := 1 }) = true := by
  decide +kernel

/-- `REV M2, 100` second tick (program P4, 40000 µs, CFG_S), on M1 here: duty 9. -/
theorem test_rev_second_tick :
    goesTo (exec (.rev .m1 100) (device cfgS 40000
        { position := 4, interruptVelocity := 100, lastInterruptTime := 40000, lastLoopTime := 20000,
          prevPosition := 2, filter1 := ⟨25, 100⟩, filter2 := ⟨25, 100⟩, integralError := 3 / 2,
          prevError := 75, smoothedTarget := 100, prevCommandedTarget := 100, prevDirection := 2,
          duty := 81, en1 := 0, en2 := 1 }))
      (fun t => t == device cfgS 40000
        { position := 4, interruptVelocity := 100, lastInterruptTime := 40000, lastLoopTime := 40000,
          prevPosition := 4, filter1 := ⟨125 / 2, 100⟩, filter2 := ⟨125 / 2, 100⟩, integralError := 9 / 4,
          prevError := 75 / 2, smoothedTarget := 100, prevCommandedTarget := 100, prevDirection := 2,
          duty := 9, en1 := 0, en2 := 1 }) = true := by
  decide +kernel

/-- `@40000 EDGE M1` (the example of R130), and the floor at an equal clock reading (section 4.1). -/
theorem test_edge_counts :
    goesTo (exec (.edge .m1) (device cfgT 40000
        { zero with position := 9, interruptVelocity := 250, lastInterruptTime := 36000 }))
      (fun t => t == device cfgT 40000
        { zero with position := 10, interruptVelocity := 250, lastInterruptTime := 40000 }) = true ∧
    goesTo (exec (.edge .m1) (device cfgT 5000
        { zero with position := 1, interruptVelocity := 200, lastInterruptTime := 5000 }))
      (fun t => t == device cfgT 5000
        { zero with position := 2, interruptVelocity := 1000000, lastInterruptTime := 5000 }) = true := by
  decide +kernel

/-- `EDGE` at the top of `position` faults (U1); a clock behind the last pulse is refused (U3). -/
theorem test_edge_stops :
    faultsWith (exec (.edge .m1) (device cfgT 0 { zero with position := 4294967295 }))
      (.positionOverflow .m1) = true ∧
    faultsWith (exec (.edge .m1) (device cfgNarrow 0 { zero with position := 3 })) (.positionOverflow .m1) = true ∧
    refusedWith (exec (.edge .m1) (device cfgT 4999 { zero with lastInterruptTime := 5000 }))
      (.edgeBeforeLastEdge .m1) = true := by decide +kernel

/-- `SNAP M1` returns (10, 250) and changes no channel (section 4.2). -/
theorem test_snap_shows_the_pair :
    goesTo (exec (.snap .m1) (device cfgT 0 { zero with position := 10, interruptVelocity := 250 }))
      (fun t => t == { device cfgT 0 { zero with position := 10, interruptVelocity := 250 } with
        snapPos := 10, snapVel := 250 }) = true := by decide +kernel

/-- `RST` zeroes both channels (R290). -/
theorem test_rst_zeroes :
    goesTo (exec .rst { device cfgT 7 { zero with position := 10, duty := 3, prevDirection := 2 } with
        m2 := { zero with smoothedTarget := 5, en1 := 1 } })
      (fun t => t == device cfgT 7 zero) = true := by decide +kernel

/-! ### The micro-operations (sections 4.3 to 4.7) -/

theorem test_vest_floor :
    estimates exactNumerics cfgT { zero with lastLoopTime := 20000, prevPosition := 5 } ⟨6, 250⟩ 20000 =
      some ⟨1 / 1000000, 240000, 60⟩ := by decide +kernel

theorem test_lpf_default :
    lpfStep exactNumerics cfgT ⟨2184 / 625, 48⟩ 72 = some ⟨4578756 / 390625, 72⟩ := by decide +kernel

theorem test_ramp_branches :
    rampTo exactNumerics cfgT 0 120 (1 / 100) = some 5 ∧ rampTo exactNumerics cfgT 115 120 (1 / 100) = some 120 ∧
    rampTo exactNumerics cfgT 118 120 (1 / 100) = some 120 ∧ rampTo exactNumerics cfgT 200 120 (1 / 100) = some 195 ∧
    rampTo exactNumerics cfgT 3 0 (1 / 100) = some 0 ∧
    rampTo exactNumerics cfgS 25 100 (1 / 1000000) = some (5001 / 200) := by decide +kernel

/-- The `u` of a `PID` call on a channel with the given `integral_error` and `prev_error`, CFG_T. -/
def effort (ie pe eff filt dt : ℚ) : Option ℚ :=
  (pid exactNumerics cfgT { zero with integralError := ie, prevError := pe } eff filt dt).map Prod.snd

/-- Rows 2, 3, 4, 6, 7 and 9 of section 4.6. -/
theorem test_pid_rows :
    effort 7 100 100 0 (1 / 100) = some 170 ∧ effort 7 99 99 0 (1 / 100) = some (1789 / 10) ∧
    effort (999 / 10) 50 50 0 (1 / 100) = some 1050 ∧ effort (-100) (-99) 0 99 1 = some (-1099) ∧
    effort 7 (-100) 0 100 (1 / 100) = some (-30) ∧ effort (-3 / 2) 0 400 0 (1 / 100) = some 785 := by decide +kernel

/-- Section 4.7; the last three with `OUTPUT_CLAMP` = 20. -/
theorem test_duty_rounds_and_clamps :
    [0, 49 / 100, 1 / 2, -1 / 2, 5 / 2, 25349 / 100, -507 / 2, 1281 / 5, -1023 / 2, -19415751 / 3906250].map
        (dutyOf exactNumerics cfgT) =
      [some 0, some 0, some 1, some 1, some 3, some 253, some 254, some 254, some 254, some 5] ∧
    [39 / 2, 20, 21].map (dutyOf exactNumerics cfgNarrow) = [some 20, some 20, some 20] := by decide +kernel

/-- The jump test is strict (section 4.8): 50 is no discontinuity, 51 is, up and down. -/
theorem test_discontinuity_is_strict :
    [150, 151, 50, 49, 100].map
        (discontinuity cfgT { zero with prevDirection := 1, prevCommandedTarget := 100 } 1) =
      [false, true, false, true, false] ∧
    discontinuity cfgT { zero with prevDirection := 1, prevCommandedTarget := 100 } 2 100 = true ∧
    [105, 106].map (discontinuity cfgNarrow { zero with prevDirection := 1, prevCommandedTarget := 100 } 1) =
      [false, true] := by decide +kernel

/-- The deadband and the bound of the integral are the configuration's (R8): `LOOP_DEADBAND_RPM` = 10,
`INTEGRAL_CLAMP` = 2. -/
theorem test_integral_of_other_parameters :
    [9, 10, -9, -1].map (fun e => nextIntegral exactNumerics cfgNarrow 0 e 1) =
      [some 2, some 0, some (-2), some (-1)] := by decide +kernel

/-! ### Other numerics (R15, R300) -/

/-- A value that is not finite ends the computation of a pulse and of a tick, and the request faults (U6). -/
theorem test_nonFinite_faults :
    countPulse neverFinite cfgT 5 zero = none ∧ driveTick neverFinite cfgT 1 120 5 zero = none ∧
    faultsWith (finishChannel .m2 (device cfgT 5 zero) none) (.nonFinite .m2) = true := by decide +kernel

/-- R15: one operation each, in the order written. In numerics whose sum keeps its left operand only, the filter keeps
its first product; in numerics whose quotient is 0, no velocity is left. -/
theorem test_order_of_operations :
    lpfStep (fun op a b => if op = .add then some a else exactNumerics op a b) cfgS ⟨8, 4⟩ 2 = some ⟨4, 2⟩ ∧
    pulseVelocity (fun op a b => if op = .div then some 0 else exactNumerics op a b) cfgT 9 0 = some 0 := by
  decide +kernel

/-! ### The step, the ports, the trace syntax, the link -/

/-- Each row's word is performed as the very first request after reset. -/
theorem test_first_step_runs_the_word :
    step (State.reset.withFetchWord 16 0x0000) = exec (.stop .m1 0) State.reset ∧
    step (State.reset.withFetchWord 16 0x0600) = exec (.stopCode3 .m1 0) State.reset ∧
    step (State.reset.withFetchWord 16 0x0278) = exec (.fwd .m1 120) State.reset ∧
    step (State.reset.withFetchWord 16 0x1450) = exec (.rev .m2 80) State.reset ∧
    step (State.reset.withFetchWord 16 0x2000) = exec (.edge .m1) State.reset ∧
    step (State.reset.withFetchWord 16 0x5000) = exec (.snap .m2) State.reset ∧
    step (State.reset.withFetchWord 16 0x6000) = exec .rst State.reset := by
  exact ⟨rfl, rfl, rfl, rfl, rfl, rfl, rfl⟩

/-- A whole trace entry: the time is sampled, the entry consumed; its refusals (U2, U3, U5). -/
theorem test_step_samples_the_time :
    goesTo (step { device cfgT 3 zero with requests := [⟨9, 0x4000⟩, ⟨9, 0x4000⟩] })
      (fun t => t == { device cfgT 9 zero with requests := [⟨9, 0x4000⟩] }) = true ∧
    refusedWith (step { device cfgT 3 zero with requests := [⟨4294967296, 0x4000⟩] })
      (.timeTooWide 4294967296) = true ∧
    refusedWith (step { device cfgNarrow 3 zero with requests := [⟨8, 0x4000⟩] }) (.timeTooWide 8) = true ∧
    refusedWith (step { device cfgT 3 zero with requests := [⟨2, 0x4000⟩] }) (.traceTimeDecreases 2) = true ∧
    refusedWith (step { device cfgT 3 zero with requests := [⟨3, 0x4800⟩] })
      (.reservedWord .zeroField) = true := by decide +kernel

/-- A rising edge is one request; a falling edge and a level are none (R62). -/
theorem test_encoderRequests : encoderRequests .m2 0 [(5, 1), (6, 1), (7, 0), (8, 1)] =
    [⟨5, 0x3000⟩, ⟨8, 0x3000⟩] := by decide

/-- `EDGE` does not come from the port `req` (R95, R268). -/
theorem test_ports_of_the_requests : arrivesOnReq (.edge .m1) = false ∧ arrivesOnReq .rst = true ∧
    agentOf (.edge .m2) = .encoder .m2 := by decide

/-- The lines of R104 and R105, with a comment, a default time, `@+` and the pseudo-requests; words of P6. -/
theorem test_assemble :
    assemble ["@10000 CONTROL 1, 120, 2, 80 ; tick".toList, "@+5 EDGES M1, 2, 10".toList, "SNAP M1".toList,
        "@1010000 TICK M2, 3, 500".toList] =
      some [⟨10000, 0x0278⟩, ⟨10000, 0x1450⟩, ⟨10015, 0x2000⟩, ⟨10025, 0x2000⟩, ⟨10025, 0x4000⟩,
        ⟨1010000, 0x17F4⟩] ∧
    assemble ["@5 RST".toList, "@4 RST".toList] = none := by decide +kernel

/-- Section 3: `STOP` only for `dir` 0 and `rpm` 0. -/
theorem test_disassemble : disassemble (.stop .m1 500) = "TICK M1, 0, 500".toList ∧
    disassemble (.stop .m2 0) = "STOP M2".toList ∧ disassemble (.rev .m2 80) = "REV M2, 80".toList ∧
    disassemble (.stopCode3 .m1 0) = "TICK M1, 3, 0".toList := by decide +kernel

/-- The frames of S2 and S3, and a malformed comma structure (R113). -/
theorem test_parseFrame : parseFrame "1,120,2,80".toList = some ⟨1, 120, 2, 80⟩ ∧
    parseFrame "1,999,2,80".toList = some ⟨1, 500, 2, 80⟩ ∧ parseFrame "1,120,2".toList = none := by
  decide +kernel

/-- R112: the 26th character without a terminator discards the buffer. -/
theorem test_link_discards_overflow :
    ((List.replicate 25 '1').foldl (fun l c => linkReceive 0 c l) (linkStart 0)).buffer.length = 25 ∧
    ((List.replicate 26 '1').foldl (fun l c => linkReceive 0 c l) (linkStart 0)).buffer = [] := by
  decide +kernel

/-- R115 with `COMMAND_TIMEOUT_MS` = 7: the tuple as it stands after 7 ms, stop on both channels after 8. -/
theorem test_link_window :
    linkTick cfgNarrow 7 ⟨[], ⟨1, 120, 2, 80⟩, 0⟩ = [.fwd .m1 120, .rev .m2 80] ∧
    linkTick cfgNarrow 8 ⟨[], ⟨1, 120, 2, 80⟩, 0⟩ = [.stop .m1 0, .stop .m2 0] := by decide +kernel

/-! ### Witnesses: values that meet the hypotheses of each statement, clause by clause -/

theorem witness_DecodeEncodeRoundTrip : (Instr.fwd .m2 511).WellFormed := by decide

theorem witness_DecodedWordIsTheEncoding : decode 0x13FF#16 = .ok (.fwd .m2 511) := rfl

theorem witness_DecoderAgreesWithTheOpcodeTable : decode 0x17FF#16 = .ok (.stopCode3 .m2 511) ∧
    (⟨0x0600#16, 0xEE00#16⟩ : TableRow) ∈ opcodeTable ∧ 0x17FF#16 &&& 0xEE00#16 = 0x0600#16 :=
  ⟨rfl, by decide, by decide⟩

/-- One entry, at the last time that fits. -/
def lastMoment (w : ReqWord) : State :=
  { device cfgS 4294967295 zero with requests := [⟨4294967295, w⟩] }

theorem witness_ReservedWordsAreRefused :
    (lastMoment 0xFFFF).requests = [⟨4294967295, 0xFFFF⟩] ∧ 4294967295 < 2 ^ (lastMoment 0xFFFF).config.timeW ∧
      (lastMoment 0xFFFF).nowUs ≤ 4294967295 ∧
      decode 0xFFFF#16 = .error .kind ∧ decode 0x0800#16 = .error .zBit ∧ decode 0x2001#16 = .error .zeroField ∧
      decode 0x7000#16 = .error .resetBits := ⟨rfl, by decide +kernel, by decide +kernel, rfl, rfl, rfl, rfl⟩

theorem witness_StepPerformsTheDecodedRequest :
    (lastMoment 0x03FF).requests = [⟨4294967295, 0x03FF⟩] ∧ 4294967295 < 2 ^ (lastMoment 0x03FF).config.timeW ∧
      (lastMoment 0x03FF).nowUs ≤ 4294967295 ∧ decode 0x03FF#16 = .ok (.fwd .m1 511) :=
  ⟨rfl, by decide +kernel, by decide +kernel, rfl⟩

/-- Clause 1 at `2^TIME_W`; clause 2 at 0 behind 1. -/
theorem witness_StepRefusesTimesOutOfContract :
    2 ^ (device cfgS 1 zero).config.timeW ≤ (⟨4294967296, 0⟩ : Request).now ∧
      ((⟨0, 0⟩ : Request).now < 2 ^ (device cfgS 1 zero).config.timeW ∧
        (⟨0, 0⟩ : Request).now < (device cfgS 1 zero).nowUs) ∧
      { device cfgS 1 zero with requests := [⟨0, 0⟩] }.requests = [⟨0, 0⟩] := by decide +kernel

theorem witness_StepWaitsForARequest : (device cfgS 0 zero).requests = [] := rfl

/-- M1 with the count and the time of the last pulse given, at time 5. -/
def pulsed (position last : Nat) : State := device cfgS 5 { zero with position := position, lastInterruptTime := last }

/-- Clause 1 at the last count that can grow, the clock reading equal; clause 2 at that count one microsecond behind;
clause 3 at the top count. -/
theorem witness_EdgeCountsThePulse :
    ((pulsed 4294967294 5).config.numerics = .exact ∧
      ((pulsed 4294967294 5).chan .m1).lastInterruptTime ≤ (pulsed 4294967294 5).nowUs ∧
      ((pulsed 4294967294 5).chan .m1).position < 2 ^ (pulsed 4294967294 5).config.posW - 1) ∧
    ((pulsed 4294967294 6).nowUs < ((pulsed 4294967294 6).chan .m1).lastInterruptTime ∧
      ((pulsed 4294967294 6).chan .m1).position < 2 ^ (pulsed 4294967294 6).config.posW - 1) ∧
    ((pulsed 4294967295 5).chan .m1).lastInterruptTime ≤ (pulsed 4294967295 5).nowUs ∧
      ((pulsed 4294967295 5).chan .m1).position = 2 ^ (pulsed 4294967295 5).config.posW - 1 := by
  decide +kernel

/-- A device over other numerics, at the last count that can grow. -/
theorem witness_EdgeOverAnyNumerics :
    ({ pulsed 4294967294 5 with config := { cfgS with numerics := .other 7 } }.chan .m1).lastInterruptTime ≤ 5 ∧
      ({ pulsed 4294967294 5 with config := { cfgS with numerics := .other 7 } }.chan .m1).position < 2 ^ 32 - 1 := by
  decide +kernel

/-- At the top count, where the overflow holds too. -/
theorem witness_EdgeTestsTheClockFirst :
    (pulsed 4294967295 6).nowUs < ((pulsed 4294967295 6).chan .m1).lastInterruptTime := by decide

/-- The reference numerics is never non-finite, so a device that has it meets the premise. -/
theorem pulsed_neverNonFinite (position last : Nat) : NeverNonFinite (pulsed position last).config.num :=
  exactNumerics_isSome

/-- Two pulses at one clock reading, up to the top count. -/
theorem witness_PulsesAccumulate : NeverNonFinite (pulsed 4294967293 5).config.num ∧
    { pulsed 4294967293 5 with
        requests := [⟨5, 0x2000⟩, ⟨5, 0x2000⟩] }.requests = [5, 5].map (fun t => ⟨t, encode (.edge .m1)⟩) ∧
      (∀ t ∈ [5, 5], (pulsed 4294967293 5).nowUs ≤ t ∧ t < 2 ^ (pulsed 4294967293 5).config.timeW) ∧
      [5, 5].Pairwise (· ≤ ·) ∧
      ((pulsed 4294967293 5).chan .m1).lastInterruptTime ≤ (pulsed 4294967293 5).nowUs ∧
      ((pulsed 4294967293 5).chan .m1).position + [5, 5].length < 2 ^ (pulsed 4294967293 5).config.posW ∧
      (pulsed 4294967293 5).config.numerics = .exact ∧ [5, 5] = [5] ++ [5] :=
  ⟨pulsed_neverNonFinite _ _, by decide +kernel⟩

/-- High, low, high from a high level: one rising edge. -/
theorem witness_EachRisingEdgeIsCountedOnce : NeverNonFinite (pulsed 0 5).config.num ∧
    { pulsed 0 5 with requests := [⟨7, 0x2000⟩] }.requests = encoderRequests .m1 1 [(5, 1), (6, 0), (7, 1)] ∧
      (∀ p ∈ ([(5, 1), (6, 0), (7, 1)] : List (Nat × BitVec 1)),
        (pulsed 0 5).nowUs ≤ p.1 ∧ p.1 < 2 ^ (pulsed 0 5).config.timeW) ∧
      ([(5, 1), (6, 0), (7, 1)] : List (Nat × BitVec 1)).Pairwise (fun p q => p.1 ≤ q.1) ∧
      ((pulsed 0 5).chan .m1).lastInterruptTime ≤ (pulsed 0 5).nowUs ∧
      ((pulsed 0 5).chan .m1).position + 3 < 2 ^ (pulsed 0 5).config.posW :=
  ⟨pulsed_neverNonFinite _ _, by decide +kernel⟩

theorem witness_SnapshotIsOfOnePulse : (pulsed 4294967294 5).config.numerics = .exact ∧
    ((pulsed 4294967294 5).chan .m1).lastInterruptTime ≤ (pulsed 4294967294 5).nowUs ∧
      ((pulsed 4294967294 5).chan .m1).position < 2 ^ (pulsed 4294967294 5).config.posW - 1 := by decide +kernel

/-- M1 with the time of its last control-loop call and its previous command given, at time 9. -/
def driven (last : Nat) (dir : BitVec 2) (rpm : RpmWord) : State :=
  device cfgS 9 { zero with lastLoopTime := last, prevDirection := dir, prevCommandedTarget := rpm }

/-- The largest target; clause 1 at an equal clock reading, clause 2 one microsecond behind. -/
theorem witness_FwdPerformsTheDriveTick : 511 < 512 ∧
    ((driven 9 0 0).config.numerics = .exact ∧ ((driven 9 0 0).chan .m1).lastLoopTime ≤ (driven 9 0 0).nowUs) ∧
    (driven 10 0 0).nowUs < ((driven 10 0 0).chan .m1).lastLoopTime := by decide +kernel

/-- The largest target; clause 1 at an equal clock reading, clause 2 one microsecond behind. -/
theorem witness_RevPerformsTheDriveTick : 511 < 512 ∧
    ((driven 9 2 511).config.numerics = .exact ∧
      ((driven 9 2 511).chan .m1).lastLoopTime ≤ (driven 9 2 511).nowUs) ∧
    (driven 10 2 511).nowUs < ((driven 10 2 511).chan .m1).lastLoopTime := by decide +kernel

/-- A device over other numerics, the largest target, an equal clock reading. -/
theorem witness_DriveTickOverAnyNumerics : 511 < 512 ∧
    ({ driven 9 1 0 with config := { cfgS with numerics := .other 7 } }.chan .m1).lastLoopTime ≤ 9 := by
  decide +kernel

/-- Clause 1 by the direction and by a jump of 51; clause 2 likewise. -/
theorem witness_DiscontinuityDiscardsThePidState : NeverNonFinite (driven 9 1 100).config.num ∧
    ((driven 9 1 100).chan .m1).lastLoopTime ≤ (driven 9 1 100).nowUs ∧
      Sys2Proof.Spec.Discontinuous cfgS 1 0 ((driven 9 0 0).chan .m1) ∧
      Sys2Proof.Spec.Discontinuous cfgS 1 151 ((driven 9 1 100).chan .m1) ∧
      Sys2Proof.Spec.Discontinuous cfgS 2 100 ((driven 9 1 100).chan .m1) ∧
      Sys2Proof.Spec.Discontinuous cfgS 2 49 ((driven 9 2 100).chan .m1) :=
  ⟨exactNumerics_isSome, by decide +kernel⟩

/-- A forward channel mirrored as reverse, and a stopped one as stopped. -/
theorem witness_ReverseMirrorsForward : NeverNonFinite (driven 9 1 0).config.num ∧
    ((driven 9 1 0).chan .m1).lastLoopTime ≤ (driven 9 1 0).nowUs ∧
      ((2 : BitVec 2) = 2 ↔ ((driven 9 1 0).chan .m1).prevDirection = 1) ∧
      ((0 : BitVec 2) = 2 ↔ ((driven 9 0 0).chan .m1).prevDirection = 1) :=
  ⟨exactNumerics_isSome, by decide +kernel⟩

theorem witness_RampIsBoundedAndNeverOvershoots :
    (Instr.rev .m1 511 = .fwd .m1 511 ∨ Instr.rev .m1 511 = .rev .m1 511) ∧
      (driven 9 0 0).config.numerics = .exact ∧
      ((driven 9 0 0).chan .m1).lastLoopTime ≤ (driven 9 0 0).nowUs := by decide +kernel

/-- The bounds themselves; errors of exactly 100 and -100; a zero error; the largest and smallest errors that
integrate; and each strict clause, from the opposite bound. -/
theorem witness_AntiWindupFreezesAndSaturates :
    |({ zero with integralError := 100 } : MotorChannel).integralError| ≤ cfgT.integralClamp ∧
      |({ zero with integralError := -100 } : MotorChannel).integralError| ≤ cfgT.integralClamp ∧
      (∀ p ∈ ([(100, 0, 1), (0, 100, 2)] : List (ℚ × ℚ × ℚ)), cfgT.loopDeadbandRpm ≤ |p.1 - p.2.1|) ∧
      (0 : ℚ) < 1 / 1000000 ∧ (7 : ℚ) = 7 ∧ ((0 : ℚ) < 99 - 0 ∧ (99 - 0 : ℚ) < cfgT.loopDeadbandRpm) ∧
      ((0 - 99 : ℚ) < 0 ∧ -cfgT.loopDeadbandRpm < 0 - 99) ∧
      ({ zero with integralError := -100 } : MotorChannel).integralError ≠ cfgT.integralClamp ∧
      ({ zero with integralError := 100 } : MotorChannel).integralError ≠ -cfgT.integralClamp := by decide +kernel

/-- The lowest and the highest unclamped duty at their lower ends, and the first clamped effort. -/
theorem witness_DutyIsTheRoundedMagnitude :
    (0 < cfgT.outputClamp ∧ ((0 : ℕ) : ℚ) - 1 / 2 ≤ |(0 : ℚ)| ∧ |(0 : ℚ)| < ((0 : ℕ) : ℚ) + 1 / 2) ∧
      (253 < cfgT.outputClamp ∧ ((253 : ℕ) : ℚ) - 1 / 2 ≤ |(-505 / 2 : ℚ)| ∧
        |(-505 / 2 : ℚ)| < ((253 : ℕ) : ℚ) + 1 / 2) ∧
      (cfgT.outputClamp : ℚ) - 1 / 2 ≤ |(507 / 2 : ℚ)| := by decide +kernel

theorem witness_FilterConvergesToItsGain : 0 ≤ cfgT.lpfA ∧ cfgT.lpfA < 1 ∧ cfgT.LpfUnity := by
  refine ⟨by decide +kernel, by decide +kernel, ?_⟩
  show cfgT.lpfA + 2 * cfgT.lpfB = 1
  decide +kernel

theorem witness_ElapsedTimeIsFloored : 5 ≤ 5 := by decide

/-- A channel after reset has the invariants, under any configuration, at any time. -/
theorem zero_channelInv (cfg : Config) (now : Nat) : ChannelInv cfg now zero where
  position_fits := Nat.two_pow_pos cfg.posW
  prevPosition_le := Nat.le_refl 0
  integral_bounded := by rw [show zero.integralError = 0 from rfl, abs_zero]; exact cfg.integralClamp_nonneg
  duty_le := Nat.zero_le _
  outputs_agree := Or.inl ⟨rfl, rfl, rfl, rfl, rfl, rfl, rfl⟩
  lastInterruptTime_le := Nat.zero_le _
  lastLoopTime_le := Nat.zero_le _

theorem zero_velocityInv (cfg : Config) : VelocityInv cfg zero where
  interruptVelocity_nonneg := le_refl 0
  interruptVelocity_le := div_nonneg (by norm_num) (Nat.cast_nonneg _)
  smoothedTarget_nonneg := le_refl 0
  smoothedTarget_le := by norm_num [MotorChannel.reset]
  prevRaw1_nonneg := le_refl 0
  prevRaw2_nonneg := le_refl 0
  filtered_nonneg := fun _ _ => ⟨le_refl 0, le_refl 0⟩

/-- A trace with a request of each kind, `device cfgS 5 zero` before it. -/
def shortTrace : State :=
  { device cfgS 5 zero with
    requests := [⟨5, 0x2000⟩, ⟨5, 0x03F4⟩, ⟨6, 0x1450⟩, ⟨6, 0x4000⟩, ⟨7, 0x0000⟩, ⟨4294967295, 0x6000⟩] }

theorem shortTrace_inv : shortTrace.Inv where
  now_fits := by decide +kernel
  channel := fun ch => by cases ch <;> exact zero_channelInv _ _
  velocity := fun _ ch => by cases ch <;> exact zero_velocityInv _

theorem witness_EveryStepKeepsTheInvariant : shortTrace.Inv ∧ ∃ t, step shortTrace = .next t :=
  ⟨shortTrace_inv, _, rfl⟩

theorem witness_ConformingTraceRunsToItsEnd : shortTrace.Inv ∧ NeverNonFinite shortTrace.config.num ∧
    shortTrace.requests.Pairwise (fun a b => a.now ≤ b.now) ∧
    (∀ r ∈ shortTrace.requests, shortTrace.nowUs ≤ r.now ∧ r.now < 2 ^ shortTrace.config.timeW ∧
      ∃ i, decode r.word = .ok i) ∧
    ∀ ch, (shortTrace.chan ch).position + shortTrace.requests.length < 2 ^ shortTrace.config.posW := by
  refine ⟨shortTrace_inv, exactNumerics_isSome, by decide +kernel, ?_, fun ch => by cases ch <;> decide⟩
  simp only [shortTrace, List.forall_mem_cons, List.not_mem_nil, false_imp_iff, implies_true, and_true]
  exact ⟨⟨by decide +kernel, by decide +kernel, _, rfl⟩, ⟨by decide +kernel, by decide +kernel, _, rfl⟩,
    ⟨by decide +kernel, by decide +kernel, _, rfl⟩, ⟨by decide +kernel, by decide +kernel, _, rfl⟩,
    ⟨by decide +kernel, by decide +kernel, _, rfl⟩, ⟨by decide +kernel, by decide +kernel, _, rfl⟩⟩

/-- Both sides: an entry that is performed, and one that is not, its time behind. -/
theorem witness_StepPerformsExactlyConformingEntries : shortTrace.Inv ∧ NeverNonFinite shortTrace.config.num ∧
    shortTrace.requests = ⟨5, 0x2000⟩ :: shortTrace.requests.tail ∧ (∃ t, step shortTrace = .next t) ∧
    ¬ EntryConforms shortTrace ⟨4, 0x2000⟩ :=
  ⟨shortTrace_inv, exactNumerics_isSome, rfl, ⟨_, rfl⟩, fun h => absurd h.2.1 (by decide)⟩

/-- Both clauses: a request of M1 that completes, and two states that agree on M1 and differ on M2. -/
theorem witness_ChannelsAreIsolated : (Instr.fwd .m1 511).channel? = some .m1 ∧
    (device cfgS 5 zero).config = { device cfgS 5 zero with m2 := { zero with duty := 9 } }.config ∧
    (device cfgS 5 zero).nowUs = { device cfgS 5 zero with m2 := { zero with duty := 9 } }.nowUs ∧
    (device cfgS 5 zero).chan .m1 = { device cfgS 5 zero with m2 := { zero with duty := 9 } }.chan .m1 ∧
    ∃ t, exec (.fwd .m1 511) (device cfgS 5 zero) = .next t :=
  ⟨rfl, rfl, rfl, rfl, driveRequest_completes (ch := .m1) (s := device cfgS 5 zero) exactNumerics_isSome (Nat.zero_le 5)⟩

theorem witness_RequestsOfDifferentChannelsCommute :
    (Instr.edge .m1).channel? = some .m1 ∧ (Instr.rev .m2 100).channel? = some (Channel.other .m1) ∧
      ∃ t u, perform 4 (.edge .m1) (device cfgS 0 zero) = .next t ∧ perform 5 (.rev .m2 100) t = .next u := by
  have h : ∀ d, ∃ u, perform 5 (.rev .m2 100) ((device cfgS 4 zero).setChan .m1 d) = .next u := fun d =>
    driveRequest_completes (ch := .m2) (s := { (device cfgS 4 zero).setChan .m1 d with nowUs := 5 })
      exactNumerics_isSome (Nat.zero_le 5)
  obtain ⟨u, hu⟩ := h _
  exact ⟨rfl, rfl, _, u, rfl, hu⟩

/-- Clause 1 for a pulse and a snapshot; clause 2 for a drive, a stop and a snapshot. -/
theorem witness_EachContextWritesItsOwnDomain :
    (∃ t, exec (.edge .m1) (device cfgS 0 zero) = .next t) ∧
      (∃ t, exec (.snap .m1) (device cfgS 0 zero) = .next t) ∧
      (∃ ch, Instr.edge .m1 = .edge ch ∨ Instr.edge .m1 = .snap ch) ∧
      (∃ t, exec (.fwd .m1 0) (device cfgS 0 zero) = .next t) ∧
      (∃ t, exec (.stop .m1 0) (device cfgS 0 zero) = .next t) ∧
      (∀ ch, Instr.fwd .m1 0 ≠ .edge ch) ∧ Instr.fwd .m1 0 ≠ .rst :=
  ⟨⟨_, rfl⟩, ⟨_, rfl⟩, ⟨.m1, Or.inl rfl⟩,
    driveRequest_completes (ch := .m1) (s := device cfgS 0 zero) exactNumerics_isSome (Nat.le_refl 0), ⟨_, rfl⟩, fun _ h => by simp at h, fun h => by simp at h⟩

theorem witness_PositionAndTimeNeverDecrease :
    (∃ t, step shortTrace = .next t) ∧ ∀ r ∈ shortTrace.requests.head?, decode r.word ≠ .ok .rst := by
  refine ⟨⟨_, rfl⟩, fun r hr => ?_⟩
  have h : r = ⟨5, 0x2000⟩ := by simpa [shortTrace] using hr.symm
  subst h
  intro h
  have h' : (Except.ok (.edge .m1) : Except Reserved Instr) = .ok .rst := h
  injection h' with h'
  cases h'

theorem witness_DisassemblyIsReadBack : (Instr.stop .m2 511).WellFormed := by decide

/-- Clause 1: a frame the link reads; clause 2: the largest tuple in range. -/
theorem witness_LinkDeliversTuplesInRange :
    parseFrame "1,999,2,80".toList = some ⟨1, 500, 2, 80⟩ ∧
      (⟨2, 500, 2, 500⟩ : LinkCommand).dirL ≤ 2 ∧ (⟨2, 500, 2, 500⟩ : LinkCommand).rpmL ≤ 500 ∧
      (⟨2, 500, 2, 500⟩ : LinkCommand).dirR ≤ 2 ∧ (⟨2, 500, 2, 500⟩ : LinkCommand).rpmR ≤ 500 := by
  decide +kernel

/-- One millisecond past the window. -/
theorem witness_LinkTimeoutStopsBothMotors : cfgT.commandTimeoutMs < 1001 - (linkStart 0).lastValidMs := by decide

end Sys2Proof.Tests
end

/-! PROOF. The statements of 00_scope.md: a drive tick and a pulse over any numerics (R15), the isolation of the
channels (R3), and what never decreases (R16, R45, R63). -/

namespace Sys2Proof.Machine

open Sys2Proof.Spec

/-! ### The statements' own terms -/

theorem ended_eq_finishChannel (s : State) (ch : Channel) (r : Option MotorChannel) :
    ended s ch r = finishChannel ch s r := rfl

/-- The model's Boolean test is the statement's proposition (R216). -/
theorem ite_discontinuity {α : Type} (cfg : Config) (c : MotorChannel) (dir : BitVec 2) (rpm : Nat) (x y : α) :
    (if discontinuity cfg c dir rpm then x else y) = if Discontinuous cfg dir rpm c then x else y :=
  if_congr (discontinuity_iff cfg c dir rpm) rfl rfl

/-! ### Each computation of a tick followed by the rest of it: its operations, one by one (R15) -/

section
variable {β : Type} (N : Numerics) (cfg : Config)

/-- The five divisions and multiplications of `VEST` (R150, R151). -/
theorem estimates_bind (c : MotorChannel) (snap : Snapshot) (now : Nat) (k : Estimates → Option β) :
    (estimates N cfg c snap now).bind k =
      (N .div (elapsedUs cfg now c.lastLoopTime : Num) 1000000).bind fun dt =>
      (N .div (pulseDelta snap.pos c.prevPosition) dt).bind fun v1 =>
      (N .div v1 cfg.pulsesPerRev).bind fun r1 =>
      (N .mul r1 60).bind fun rpm1 =>
      (N .div snap.iv cfg.pulsesPerRev).bind fun r2 =>
      (N .mul r2 60).bind fun rpm2 => k ⟨dt, rpm1, rpm2⟩ := by
  simp only [estimates, elapsedS, usToS, toRpm, Option.bind_eq_bind, Option.pure_def, Option.bind_assoc,
    Option.bind_some]

/-- The three products and two sums of one filter step (R156). -/
theorem lpfStep_bind (f : FilterState) (raw : Num) (k : FilterState → Option β) :
    (lpfStep N cfg f raw).bind k =
      (N .mul cfg.lpfA f.filteredVelocity).bind fun p1 =>
      (N .mul cfg.lpfB raw).bind fun p2 =>
      (N .mul cfg.lpfB f.prevRawVelocity).bind fun p3 =>
      (N .add p1 p2).bind fun s12 =>
      (N .add s12 p3).bind fun filtered => k ⟨filtered, raw⟩ := by
  simp only [lpfStep, Option.bind_eq_bind, Option.pure_def, Option.bind_assoc, Option.bind_some]

/-- The step, the distance, and the one operation of the branch taken (R170). -/
theorem rampTo_bind (old target dt : Num) (k : Num → Option β) :
    (rampTo N cfg old target dt).bind k =
      (N .mul cfg.rampRate dt).bind fun step =>
      (N .sub target old).bind fun d =>
      (if step < d then N .add old step else if d < -step then N .sub old step else some target).bind k := by
  simp only [rampTo, Option.bind_eq_bind, Option.bind_assoc, gt_iff_lt]

/-- The integral's sum where the error is inside the deadband, then the clamp, which is no operation (R180). -/
theorem nextIntegral_bind (ie e dt : Num) (k : Num → Option β) :
    (nextIntegral N cfg ie e dt).bind k =
      (if |e| < cfg.loopDeadbandRpm then (N .mul e dt).bind fun x => N .add ie x else some ie).bind fun sum =>
        k (min (max sum (-cfg.integralClamp)) cfg.integralClamp) := by
  simp only [nextIntegral, integrates_iff, Option.bind_map, Function.comp_def, clampNum]

/-- The three products and two sums of the control effort (R180). -/
theorem controlEffort_bind (e ie deriv : Num) (k : Num → Option β) :
    (controlEffort N cfg e ie deriv).bind k =
      (N .mul cfg.kp e).bind fun p =>
      (N .mul cfg.ki ie).bind fun i =>
      (N .mul cfg.kd deriv).bind fun d =>
      (N .add p i).bind fun pi =>
      (N .add pi d).bind k := by
  simp only [controlEffort, Option.bind_eq_bind, Option.bind_assoc]

/-- The one sum of `round_hu`, then the clamp to the largest duty (R14, R201). -/
theorem dutyOf_bind (u : Num) (k : Nat → Option β) :
    (dutyOf N cfg u).bind k =
      (N .add |u| (1 / 2)).bind fun half => k (min ⌊half⌋.toNat cfg.outputClamp) := by
  simp only [dutyOf, roundHu, Option.bind_map, Function.comp_def]
  rfl

end

/-! ### The tick and the pulse over any numerics -/

/-- What is done with a chain's result, done inside the chain: two chains agree that start alike and go on alike. -/
theorem map_bind_eq {α β γ : Type} {x : Option α} {f : α → Option β} {r : β → γ} {g : α → Option γ}
    (h : ∀ a, (f a).map r = g a) : (x.bind f).map r = x.bind g := by
  rw [Option.map_bind]
  exact congrArg x.bind (funext h)

/-- A drive tick performs the operations of R150, R156, R170, R180 and R201 in the order the rules write them. -/
theorem driveTick_eq_driveOps (N : Numerics) (cfg : Config) (now : Nat) (dir : BitVec 2) (rpm : Nat)
    (c : MotorChannel) :
    driveTick N cfg dir rpm now c =
      driveOps N cfg now dir (dirset c dir).en1 (dirset c dir).en2 rpm c := by
  rw [driveTick, loop, loopAfterSnap_eq, beforeLoop_eq, ite_discontinuity, ite_discontinuity, estimates_bind]
  refine map_bind_eq fun dt => map_bind_eq fun v1 => map_bind_eq fun r1 => map_bind_eq fun rpm1 =>
    map_bind_eq fun r2 => map_bind_eq fun rpm2 => ?_
  rw [lpfStep_bind]
  refine map_bind_eq fun a1 => map_bind_eq fun b1 => map_bind_eq fun c1 => map_bind_eq fun ab1 =>
    map_bind_eq fun f1 => ?_
  rw [lpfStep_bind]
  refine map_bind_eq fun a2 => map_bind_eq fun b2 => map_bind_eq fun c2 => map_bind_eq fun ab2 =>
    map_bind_eq fun f2 => ?_
  rw [rampTo_bind]
  refine map_bind_eq fun step => map_bind_eq fun d => map_bind_eq fun eff => map_bind_eq fun e => ?_
  rw [nextIntegral_bind]
  refine map_bind_eq fun sum => map_bind_eq fun change => map_bind_eq fun deriv => ?_
  rw [controlEffort_bind]
  refine map_bind_eq fun p => map_bind_eq fun i => map_bind_eq fun k => map_bind_eq fun pi =>
    map_bind_eq fun u => ?_
  rw [dutyOf_bind]
  exact map_bind_eq fun half => rfl

/-- Settles O20: each micro-operation's chain is spelled out by its `_bind` lemma, and the model's tick is those chains
one after the other. -/
theorem driveTickOverAnyNumerics : Obligations.DriveTickOverAnyNumerics := by
  intro s ch rpm _ hle
  have tick : ∀ dir, driveRequest dir ch rpm s = ended s ch
      (driveOps s.config.num s.config s.nowUs dir (dirset (s.chan ch) dir).en1 (dirset (s.chan ch) dir).en2 rpm
        (s.chan ch)) := fun dir => by
    rw [driveRequest_of_le rpm hle, driveTick_eq_driveOps, ended_eq_finishChannel]
  exact ⟨tick 1, tick 2⟩

/-- Settles O10: with the clock in order and room in `position`, the request is the write of `countPulse`. -/
theorem edgeOverAnyNumerics : Obligations.EdgeOverAnyNumerics := by
  intro s ch htime hpos
  have hexec : exec (.edge ch) s = execEdge ch s := rfl
  rw [hexec, execEdge_of_le htime hpos, ended_eq_finishChannel]
  simp only [countPulse, pulseVelocity, elapsedS, usToS, elapsedUs, Option.bind_eq_bind, Option.bind_assoc]

/-- Settles O29: the floor is at least 1 (U12), so the elapsed time is positive. -/
theorem elapsedTimeIsFloored : Obligations.ElapsedTimeIsFloored := fun cfg now last _ =>
  ⟨rfl, one_le_elapsedUs cfg now last, _, elapsedS_exact cfg now last, rfl, seconds_pos cfg now last⟩

/-! ### What a request of one channel leaves (R3, R45) -/

/-- The record it leaves in its own channel, which is a function of that channel, the configuration and the time. -/
theorem afterRequest_of_exec {i : Instr} {ch : Channel} {s t : State} (hi : i.channel? = some ch)
    (h : exec i s = .next t) : afterRequest s.config s.nowUs i (s.chan ch) = some (t.chan ch) := by
  obtain ⟨c, p, v, hc, rfl⟩ := exec_next_channel hi h
  rw [hc, State.chan_mk, State.chan_setChan_same]

/-- The frame of a request of one channel. -/
theorem exec_frame {i : Instr} {ch : Channel} {s t : State} (hi : i.channel? = some ch) (h : exec i s = .next t) :
    t.chan ch.other = s.chan ch.other ∧ t.config = s.config ∧ t.nowUs = s.nowUs ∧ t.requests = s.requests := by
  obtain ⟨c, p, v, -, rfl⟩ := exec_next_channel hi h
  simp

/-- Whether a drive request completes depends on its own channel, the configuration and the time alone. -/
theorem driveRequest_completes_of_agree {dir : BitVec 2} {ch : Channel} {rpm : Nat} {s s' t : State}
    (hcfg : s.config = s'.config) (hnow : s.nowUs = s'.nowUs) (hch : s.chan ch = s'.chan ch)
    (h : driveRequest dir ch rpm s = .next t) : ∃ t', driveRequest dir ch rpm s' = .next t' := by
  obtain ⟨hle, d, hd, -⟩ := driveRequest_next h
  rw [hcfg, hnow, hch] at hd
  rw [hnow, hch] at hle
  rw [driveRequest_of_le rpm hle, hd]
  exact ⟨_, finishChannel_some ch s' d⟩

/-- Whether a pulse completes depends on its own channel, the configuration and the time alone. -/
theorem execEdge_completes_of_agree {ch : Channel} {s s' t : State}
    (hcfg : s.config = s'.config) (hnow : s.nowUs = s'.nowUs) (hch : s.chan ch = s'.chan ch)
    (h : execEdge ch s = .next t) : ∃ t', execEdge ch s' = .next t' := by
  obtain ⟨hle, hlt, d, hd, -⟩ := execEdge_next h
  rw [hcfg, hnow, hch] at hd
  rw [hnow, hch] at hle
  rw [hcfg, hch] at hlt
  rw [execEdge_of_le hle hlt, hd]
  exact ⟨_, finishChannel_some ch s' d⟩

/-- Whether a request of a channel completes depends on that channel, the configuration and the time alone. -/
theorem exec_completes_of_agree {i : Instr} {ch : Channel} {s s' t : State} (hi : i.channel? = some ch)
    (hcfg : s.config = s'.config) (hnow : s.nowUs = s'.nowUs) (hch : s.chan ch = s'.chan ch)
    (h : exec i s = .next t) : ∃ t', exec i s' = .next t' := by
  cases i with
  | stop _ _ => exact ⟨_, rfl⟩
  | stopCode3 _ _ => exact ⟨_, rfl⟩
  | fwd _ _ => cases hi; exact driveRequest_completes_of_agree hcfg hnow hch h
  | rev _ _ => cases hi; exact driveRequest_completes_of_agree hcfg hnow hch h
  | edge _ => cases hi; exact execEdge_completes_of_agree hcfg hnow hch h
  | snap _ => exact ⟨_, rfl⟩
  | rst => cases hi

/-- Settles O38: the frame, then that both completion and the record left are functions of what the states share. -/
theorem channelsAreIsolated : Obligations.ChannelsAreIsolated := by
  intro i ch hi
  refine ⟨fun s t h => exec_frame hi h, fun s s' t hcfg hnow hch h => ?_⟩
  obtain ⟨t', h'⟩ := exec_completes_of_agree hi hcfg hnow hch h
  have hrec := afterRequest_of_exec hi h
  have hrec' := afterRequest_of_exec hi h'
  rw [← hcfg, ← hnow, ← hch, hrec] at hrec'
  exact ⟨t', h', (Option.some.inj hrec').symm⟩

/-! ### What never decreases (R21, R45, R63) -/

theorem driveTick_position {N : Numerics} {cfg : Config} {dir : BitVec 2} {rpm now : Nat} {c d : MotorChannel}
    (h : driveTick N cfg dir rpm now c = some d) : d.position = c.position := by
  rw [(driveTick_some h).1]

theorem countPulse_position {N : Numerics} {cfg : Config} {now : Nat} {c d : MotorChannel}
    (h : countPulse N cfg now c = some d) : d.position = c.position + 1 := by
  obtain ⟨v, -, rfl⟩ := countPulse_some h
  rfl

/-- No request of a channel lowers `position`: a pulse adds one, every other leaves it. -/
theorem afterRequest_position_le {cfg : Config} {now : Nat} {i : Instr} {ch : Channel} {c d : MotorChannel}
    (hi : i.channel? = some ch) (h : afterRequest cfg now i c = some d) : c.position ≤ d.position := by
  cases i with
  | stop _ _ => cases h; exact le_refl _
  | stopCode3 _ _ => cases h; exact le_refl _
  | fwd _ _ => exact (driveTick_position h).ge
  | rev _ _ => exact (driveTick_position h).ge
  | edge _ => exact (Nat.le_succ _).trans (countPulse_position h).ge
  | snap _ => cases h; exact le_refl _
  | rst => cases hi

/-- A request of a channel lowers neither channel's `position`. -/
theorem exec_position_le {i : Instr} {ch : Channel} {s t : State} (hi : i.channel? = some ch)
    (h : exec i s = .next t) (e : Channel) : (s.chan e).position ≤ (t.chan e).position := by
  rcases Channel.eq_or_eq_other ch e with rfl | rfl
  · exact afterRequest_position_le hi (afterRequest_of_exec hi h)
  · rw [(exec_frame hi h).1]

theorem channel?_eq_none_iff (i : Instr) : i.channel? = none ↔ i = .rst := by
  cases i <;> simp [Instr.channel?]

/-- No request writes the configuration or the time base (R8, R63, R290 corners (a), (b)). -/
theorem exec_config_nowUs {i : Instr} {s t : State} (h : exec i s = .next t) :
    t.config = s.config ∧ t.nowUs = s.nowUs := by
  cases hi : i.channel? with
  | some ch =>
    obtain ⟨-, hcfg, hnow, -⟩ := exec_frame hi h
    exact ⟨hcfg, hnow⟩
  | none =>
    obtain rfl := (channel?_eq_none_iff i).mp hi
    rw [execRst_next h]
    exact ⟨rfl, rfl⟩

/-- Settles O41: a step waits or performs one request at a time not behind the time base, and only `RST`, which names
no channel, can lower a `position`. -/
theorem positionAndTimeNeverDecrease : Obligations.PositionAndTimeNeverDecrease := by
  intro s t h
  rcases step_next h with ⟨-, rfl⟩ | ⟨r, rest, i, hreq, -, hle, hdec, hexec⟩
  · exact ⟨rfl, le_refl _, fun _ _ => le_refl _⟩
  · obtain ⟨hcfg, hnow⟩ := exec_config_nowUs hexec
    refine ⟨hcfg, hle.trans hnow.ge, fun hrst e => ?_⟩
    cases hi : i.channel? with
    | some ch => simpa using exec_position_le hi hexec e
    | none =>
      obtain rfl := (channel?_eq_none_iff i).mp hi
      exact absurd hdec (hrst r (by simp [hreq]))

end Sys2Proof.Machine

/-! PROOF. The statements of 10_state.md: the state after reset, the invariant of the device and its preservation by
every step, the entries a step performs, and the domain each context writes (R20, R24, R36, R45, R47, R261). -/

namespace Sys2Proof.Machine

/-! ### What the decoder answers is well-formed (R93, R96) -/

theorem controlRequest_wellFormed (ch : Channel) (dir : BitVec 2) {rpm : Nat} (h : rpmFits rpm = true) :
    (controlRequest ch dir rpm).WellFormed := by
  rw [controlRequest]
  split_ifs <;> exact h

/-- The target of a decoded request comes from a nine-bit field. -/
theorem decode_wellFormed {w : ReqWord} {i : Instr} (h : decode w = .ok i) : i.WellFormed := by
  simp only [decode] at h
  split_ifs at h <;> cases h
  · exact controlRequest_wellFormed _ _ (decide_eq_true (rpmField w).isLt)
  all_goals rfl

/-! ### The state after reset (R47) -/

theorem chan_reset (ch : Channel) : State.reset.chan ch = MotorChannel.reset := by cases ch <;> rfl

theorem resetChannel_eq (c : MotorChannel) : resetChannel c = MotorChannel.reset := rfl

theorem reset_channelInv (cfg : Config) (now : Nat) : ChannelInv cfg now MotorChannel.reset where
  position_fits := Nat.two_pow_pos _
  prevPosition_le := le_rfl
  integral_bounded := abs_zero.trans_le cfg.integralClamp_nonneg
  duty_le := Nat.zero_le _
  outputs_agree := .inl ⟨rfl, rfl, rfl, rfl, rfl, rfl, rfl⟩
  lastInterruptTime_le := Nat.zero_le _
  lastLoopTime_le := Nat.zero_le _

theorem reset_velocityInv (cfg : Config) : VelocityInv cfg MotorChannel.reset where
  interruptVelocity_nonneg := le_rfl
  interruptVelocity_le := div_nonneg (by norm_num) (Nat.cast_nonneg _)
  smoothedTarget_nonneg := le_rfl
  smoothedTarget_le := by norm_num [MotorChannel.reset]
  prevRaw1_nonneg := le_rfl
  prevRaw2_nonneg := le_rfl
  filtered_nonneg := fun _ _ => ⟨le_rfl, le_rfl⟩

/-! ### The invariants over any numerics, kept by each write of a channel (R24, R29, R32, R36, R45, R204, R223) -/

section
variable {N : Numerics} {cfg : Config} {now : Nat} {c d : MotorChannel}

/-- A later time base keeps every timestamp behind it. -/
theorem ChannelInv.mono {later : Nat} (hc : ChannelInv cfg now c) (h : now ≤ later) : ChannelInv cfg later c :=
  { hc with
    lastInterruptTime_le := hc.lastInterruptTime_le.trans h
    lastLoopTime_le := hc.lastLoopTime_le.trans h }

theorem stopChannel_channelInv (hc : ChannelInv cfg now c) : ChannelInv cfg now (stopChannel c) :=
  { hc with
    integral_bounded := abs_zero.trans_le cfg.integralClamp_nonneg
    duty_le := Nat.zero_le _
    outputs_agree := .inl ⟨rfl, rfl, rfl, rfl, rfl, rfl, rfl⟩ }

theorem countPulse_channelInv (hc : ChannelInv cfg now c) (hroom : c.position < 2 ^ cfg.posW - 1)
    (h : countPulse N cfg now c = some d) : ChannelInv cfg now d := by
  obtain ⟨v, -, rfl⟩ := countPulse_some h
  exact { hc with
    position_fits := Nat.add_lt_of_lt_sub hroom
    prevPosition_le := hc.prevPosition_le.trans (Nat.le_succ _)
    lastInterruptTime_le := le_rfl }

/-- `DIRSET` and the recorded direction agree (R204, R226). -/
theorem driveTick_outputsAgree {dir : BitVec 2} {rpm : Nat} (hdir : dir = dirForward ∨ dir = dirReverse)
    (h : driveTick N cfg dir rpm now c = some d) : OutputsAgree d := by
  rw [(driveTick_some h).1]
  rcases hdir with rfl | rfl
  · exact .inr (.inl ⟨rfl, rfl, rfl⟩)
  · exact .inr (.inr ⟨rfl, rfl, rfl⟩)

theorem driveTick_channelInv {dir : BitVec 2} {rpm : Nat} (hdir : dir = dirForward ∨ dir = dirReverse)
    (hc : ChannelInv cfg now c) (h : driveTick N cfg dir rpm now c = some d) : ChannelInv cfg now d := by
  have hagree := driveTick_outputsAgree hdir h
  obtain ⟨hd, hint, hduty⟩ := driveTick_some h
  rw [hd] at hagree ⊢
  exact { hc with
    prevPosition_le := le_rfl
    integral_bounded := hint
    duty_le := hduty
    outputs_agree := hagree
    lastLoopTime_le := le_rfl }

end

/-- Every request keeps the invariants of its channel; a pulse needs room in `position` (R24). -/
theorem afterRequest_channelInv {cfg : Config} {now : Nat} {i : Instr} {c d : MotorChannel}
    (hroom : ∀ ch, i = .edge ch → c.position < 2 ^ cfg.posW - 1) (hc : ChannelInv cfg now c)
    (h : afterRequest cfg now i c = some d) : ChannelInv cfg now d := by
  cases i with
  | stop _ _ => cases h; exact stopChannel_channelInv hc
  | stopCode3 _ _ => cases h; exact stopChannel_channelInv hc
  | fwd _ _ => exact driveTick_channelInv (.inl rfl) hc h
  | rev _ _ => exact driveTick_channelInv (.inr rfl) hc h
  | edge ch => exact countPulse_channelInv hc (hroom ch rfl) h
  | snap _ => cases h; exact hc
  | rst => cases h; exact reset_channelInv cfg now

/-! ### The velocities in the reference numerics (R22, R31, R150, R156, R170) -/

/-- The ramp stays between bounds that hold the old value and the target (R170 corner (g)). -/
theorem ramp_mem {lo hi old target step : Num} (hstep : 0 ≤ step) (hold : lo ≤ old ∧ old ≤ hi)
    (htarget : lo ≤ target ∧ target ≤ hi) :
    lo ≤ old + max (-step) (min step (target - old)) ∧ old + max (-step) (min step (target - old)) ≤ hi := by
  have hlow : lo - old ≤ min step (target - old) := le_min (by linarith) (by linarith)
  have hhigh : max (-step) (min step (target - old)) ≤ hi - old :=
    max_le (by linarith) ((min_le_right _ _).trans (by linarith))
  constructor
  · linarith [le_max_right (-step) (min step (target - old))]
  · linarith

/-- A filter with non-negative coefficients keeps non-negative signals so (R156 corner (d)). -/
theorem filtered_nonneg {a b f raw prev : Num} (ha : 0 ≤ a) (hb : 0 ≤ b) (hf : 0 ≤ f) (hraw : 0 ≤ raw)
    (hprev : 0 ≤ prev) : 0 ≤ a * f + b * raw + b * prev := by
  positivity

section
variable {cfg : Config} {now : Nat} {c d : MotorChannel}

/-- The velocity of a pulse is at most that of the shortest interval (R16, R130). -/
theorem countPulse_velocityInv (hc : VelocityInv cfg c) (h : countPulse exactNumerics cfg now c = some d) :
    VelocityInv cfg d := by
  rw [countPulse_exact] at h
  cases h
  have hmin : (0 : Num) < cfg.dtMinUs := Nat.cast_pos.mpr cfg.dtMinUs_pos
  have hle : (cfg.dtMinUs : Num) ≤ elapsedUs cfg now c.lastInterruptTime :=
    Nat.cast_le.mpr (dtMinUs_le_elapsedUs cfg now c.lastInterruptTime)
  exact { hc with
    interruptVelocity_nonneg := div_nonneg (by norm_num) (Nat.cast_nonneg _)
    interruptVelocity_le := div_le_div_of_nonneg_left (by norm_num) hmin hle }

/-- Counts, times and a pulse's velocity are not negative, so neither are the estimates and what the filters make of
them; the ramp moves between 0 and the largest target. -/
theorem driveTick_velocityInv {dir : BitVec 2} {rpm : Nat} (hrpm : rpm < 2 ^ 9) (hc : VelocityInv cfg c)
    (h : driveTick exactNumerics cfg dir rpm now c = some d) : VelocityInv cfg d := by
  obtain ⟨dt, rpm1, rpm2, f1, eff, ie, hdt, hrpm1, hrpm2, hf1, heff, -, hd⟩ := driveTick_exact cfg dir rpm now c
  obtain rfl := Option.some.inj (hd.symm.trans h)
  have hdt_pos : 0 < dt := hdt ▸ seconds_pos cfg now c.lastLoopTime
  have hppr := cfg.pulsesPerRev_pos.le
  have hraw1 : 0 ≤ rpm1 := hrpm1 ▸
    mul_nonneg (div_nonneg (div_nonneg (Nat.cast_nonneg _) hdt_pos.le) hppr) (by norm_num)
  have hraw2 : 0 ≤ rpm2 := hrpm2 ▸ mul_nonneg (div_nonneg hc.interruptVelocity_nonneg hppr) (by norm_num)
  have hramp : 0 ≤ eff ∧ eff ≤ 511 := heff ▸
    ramp_mem (mul_nonneg cfg.rampRate_nonneg hdt_pos.le) ⟨hc.smoothedTarget_nonneg, hc.smoothedTarget_le⟩
      ⟨Nat.cast_nonneg rpm, by exact_mod_cast Nat.le_of_lt_succ hrpm⟩
  exact
    { interruptVelocity_nonneg := hc.interruptVelocity_nonneg
      interruptVelocity_le := hc.interruptVelocity_le
      smoothedTarget_nonneg := hramp.1
      smoothedTarget_le := hramp.2
      prevRaw1_nonneg := hraw1
      prevRaw2_nonneg := hraw2
      filtered_nonneg := fun ha hb => by
        obtain ⟨hfilt1, hfilt2⟩ := hc.filtered_nonneg ha hb
        exact ⟨hf1 ▸ filtered_nonneg ha hb hfilt1 hraw1 hc.prevRaw1_nonneg,
          filtered_nonneg ha hb hfilt2 hraw2 hc.prevRaw2_nonneg⟩ }

end

/-- Every well-formed request keeps its channel's velocities within their ranges. -/
theorem afterRequest_velocityInv {cfg : Config} {now : Nat} {i : Instr} {c d : MotorChannel}
    (hexact : cfg.numerics = .exact) (hi : i.WellFormed) (hc : VelocityInv cfg c)
    (h : afterRequest cfg now i c = some d) : VelocityInv cfg d := by
  simp only [afterRequest, num_eq_exactNumerics hexact] at h
  cases i with
  | stop _ _ => cases h; exact { hc with }
  | stopCode3 _ _ => cases h; exact { hc with }
  | fwd _ _ => exact driveTick_velocityInv (of_decide_eq_true hi) hc h
  | rev _ _ => exact driveTick_velocityInv (of_decide_eq_true hi) hc h
  | edge _ => exact countPulse_velocityInv hc h
  | snap _ => cases h; exact hc
  | rst => cases h; exact reset_velocityInv cfg

/-! ### The invariant of the device -/

/-- What holds of both channels, of a channel after reset and of whatever a request leaves in the channel it names,
holds of both channels after the request. -/
theorem exec_forall_chan {P : MotorChannel → Prop} {i : Instr} {s t : State} (h : exec i s = .next t)
    (hs : ∀ ch, P (s.chan ch)) (hreset : P MotorChannel.reset)
    (hown : ∀ ch d, i.channel? = some ch → afterRequest s.config s.nowUs i (s.chan ch) = some d → P d)
    (e : Channel) : P (t.chan e) := by
  cases hi : i.channel? with
  | some ch =>
    rcases Channel.eq_or_eq_other ch e with rfl | rfl
    · exact hown e _ hi (afterRequest_of_exec hi h)
    · rw [(exec_frame hi h).1]
      exact hs _
  | none =>
    obtain rfl := (channel?_eq_none_iff i).mp hi
    rw [execRst_next h, resetChannel_eq s.m1, resetChannel_eq s.m2]
    cases e <;> exact hreset

/-- A pulse that completes had room in `position` (R24, R130). -/
theorem exec_edge_room {i : Instr} {ch e : Channel} {s t : State} (hi : i.channel? = some ch) (he : i = .edge e)
    (h : exec i s = .next t) : (s.chan ch).position < 2 ^ s.config.posW - 1 := by
  subst he
  cases hi
  exact (execEdge_next h).2.1

/-- A request keeps the invariant at the time it was sampled. -/
theorem exec_inv {i : Instr} {s t : State} (hi : i.WellFormed) (hs : s.Inv) (h : exec i s = .next t) : t.Inv := by
  obtain ⟨hcfg, hnow⟩ := exec_config_nowUs h
  constructor
  case now_fits => rw [hcfg, hnow]; exact hs.now_fits
  case channel =>
    rw [hcfg, hnow]
    exact exec_forall_chan h hs.channel (reset_channelInv _ _) fun ch d hch hd =>
      afterRequest_channelInv (fun _ he => exec_edge_room hch he h) (hs.channel ch) hd
  case velocity =>
    rw [hcfg]
    exact fun hexact => exec_forall_chan h (hs.velocity hexact) (reset_velocityInv _) fun ch d _ hd =>
      afterRequest_velocityInv hexact hi (hs.velocity hexact ch) hd

/-- Sampling the time of an entry in order keeps the invariant. -/
theorem State.Inv.sample {s : State} {now : Nat} (hs : s.Inv) (rest : List Request)
    (hfits : now < 2 ^ s.config.timeW) (hle : s.nowUs ≤ now) :
    ({ s with nowUs := now, requests := rest } : State).Inv where
  now_fits := hfits
  channel := fun ch => by rw [State.chan_mk]; exact (hs.channel ch).mono hle
  velocity := fun hexact ch => by rw [State.chan_mk]; exact hs.velocity hexact ch

/-- Settles O35: a step waits, or samples the time of an entry in order and performs its well-formed request. -/
theorem everyStepKeepsTheInvariant : Obligations.EveryStepKeepsTheInvariant := by
  intro s t hs h
  rcases step_next h with ⟨-, rfl⟩ | ⟨r, rest, i, -, hfits, hle, hdec, hexec⟩
  · exact hs
  · exact exec_inv (decode_wellFormed hdec) (hs.sample rest hfits hle) hexec

/-! ### The entries a step performs (R63, R92, R100, R250) -/

/-- In numerics that are never non-finite, with no timestamp ahead of the time base, only a pulse at the top of
`position` stops a request. -/
theorem exec_completes {i : Instr} {s : State} (hN : NeverNonFinite s.config.num)
    (hs : ∀ ch, ChannelInv s.config s.nowUs (s.chan ch))
    (hroom : ∀ ch, i = .edge ch → (s.chan ch).position < 2 ^ s.config.posW - 1) : ∃ t, exec i s = .next t := by
  cases i with
  | stop _ _ => exact ⟨_, rfl⟩
  | stopCode3 _ _ => exact ⟨_, rfl⟩
  | fwd ch _ => exact driveRequest_completes hN (hs ch).lastLoopTime_le
  | rev ch _ => exact driveRequest_completes hN (hs ch).lastLoopTime_le
  | edge ch =>
    obtain ⟨d, hd⟩ := Option.isSome_iff_exists.mp (countPulse_isSome hN s.config s.nowUs (s.chan ch))
    have hrun := execEdge_of_le (hs ch).lastInterruptTime_le (hroom ch rfl)
    rw [hd] at hrun
    exact ⟨_, hrun⟩
  | snap _ => exact ⟨_, rfl⟩
  | rst => exact ⟨_, rfl⟩

/-- A step with an entry within the host contract next performs its request. -/
theorem step_of_conforms {s : State} {r : Request} {rest : List Request} {i : Instr} (hreq : s.requests = r :: rest)
    (hfits : r.now < 2 ^ s.config.timeW) (hle : s.nowUs ≤ r.now) (hdec : decode r.word = .ok i) :
    step s = exec i { s with nowUs := r.now, requests := rest } := by
  simp only [step, acceptNext, hreq, acceptEntry_of_ok rest hfits hle hdec]

/-- Settles O37: the tests of `step_next` one way, the request's completion the other. -/
theorem stepPerformsExactlyConformingEntries : Obligations.StepPerformsExactlyConformingEntries := by
  intro s r rest hs hN hreq
  constructor
  · rintro ⟨t, ht⟩
    rcases step_next ht with ⟨hnone, -⟩ | ⟨r', rest', i, hreq', hfits, hle, hdec, hexec⟩
    · cases hreq.symm.trans hnone
    · cases hreq.symm.trans hreq'
      refine ⟨⟨hfits, hle, i, hdec⟩, fun ch hedge => ?_⟩
      obtain rfl := Except.ok.inj (hdec.symm.trans hedge)
      simpa using exec_edge_room (ch := ch) rfl rfl hexec
  · rintro ⟨⟨hfits, hle, i, hdec⟩, hcount⟩
    rw [step_of_conforms hreq hfits hle hdec]
    refine exec_completes hN (hs.sample rest hfits hle).channel fun ch hi => ?_
    simpa using hcount ch (hdec.trans (congrArg Except.ok hi))

/-! ### Each context's own domain (R20, R71, R261) -/

/-- A pulse and a snapshot write at most the interrupt domain of their channel. -/
theorem afterRequest_loopDomain {cfg : Config} {now : Nat} {i : Instr} {c d : MotorChannel}
    (hi : ∃ ch, i = .edge ch ∨ i = .snap ch) (h : afterRequest cfg now i c = some d) :
    d = { c with
      position := d.position
      interruptVelocity := d.interruptVelocity
      lastInterruptTime := d.lastInterruptTime } := by
  obtain ⟨ch, rfl | rfl⟩ := hi
  · obtain ⟨v, -, rfl⟩ := countPulse_some h
    rfl
  · cases h
    rfl

theorem driveTick_interruptDomain {N : Numerics} {cfg : Config} {dir : BitVec 2} {rpm now : Nat} {c d : MotorChannel}
    (h : driveTick N cfg dir rpm now c = some d) : d.position = c.position ∧
      d.interruptVelocity = c.interruptVelocity ∧ d.lastInterruptTime = c.lastInterruptTime := by
  rw [(driveTick_some h).1]
  exact ⟨rfl, rfl, rfl⟩

/-- Control ticks, stops and snapshots leave the interrupt domain of their channel. -/
theorem afterRequest_interruptDomain {cfg : Config} {now : Nat} {i : Instr} {c d : MotorChannel}
    (hedge : ∀ ch, i ≠ .edge ch) (hrst : i ≠ .rst) (h : afterRequest cfg now i c = some d) :
    d.position = c.position ∧ d.interruptVelocity = c.interruptVelocity ∧
      d.lastInterruptTime = c.lastInterruptTime := by
  cases i with
  | stop _ _ => cases h; exact ⟨rfl, rfl, rfl⟩
  | stopCode3 _ _ => cases h; exact ⟨rfl, rfl, rfl⟩
  | fwd _ _ => exact driveTick_interruptDomain h
  | rev _ _ => exact driveTick_interruptDomain h
  | edge ch => exact absurd rfl (hedge ch)
  | snap _ => cases h; exact ⟨rfl, rfl, rfl⟩
  | rst => exact absurd rfl hrst

/-- Settles O40: in the channel the request names by what it writes there, in the other by the frame. -/
theorem eachContextWritesItsOwnDomain : Obligations.EachContextWritesItsOwnDomain := by
  intro i s t c h
  cases hi : i.channel? with
  | some ch =>
    rcases Channel.eq_or_eq_other ch c with rfl | rfl
    · have hown := afterRequest_of_exec hi h
      exact ⟨fun hint => afterRequest_loopDomain hint hown,
        fun hedge hrst => afterRequest_interruptDomain hedge hrst hown⟩
    · rw [(exec_frame hi h).1]
      exact ⟨fun _ => rfl, fun _ _ => ⟨rfl, rfl, rfl⟩⟩
  | none =>
    obtain rfl := (channel?_eq_none_iff i).mp hi
    refine ⟨fun hint => ?_, fun _ hrst => absurd rfl hrst⟩
    obtain ⟨ch, hint | hint⟩ := hint <;> cases hint

/-! ### Reset -/

/-- Settles O31. -/
theorem resetStateIsAllZero : Obligations.ResetStateIsAllZero := chan_reset

/-- Settles O34: both channels are at reset, and the time base at 0. -/
theorem resetStateHasTheInvariant : Obligations.ResetStateHasTheInvariant where
  now_fits := Nat.two_pow_pos _
  channel := fun ch => by rw [chan_reset]; exact reset_channelInv _ _
  velocity := fun _ ch => by rw [chan_reset]; exact reset_velocityInv _

end Sys2Proof.Machine

/-! PROOF. The statements of 20_memory.md: what a step does with a trace entry (R63, R73, R92), the runs of a trace to
its end (R62, R80, R295), the snapshot (R66, R69), and the orders of requests that no one sees (R74, R79). -/

namespace Sys2Proof.Machine

/-! ### What a step does with the entry presented next (R63, R73, R92) -/

/-- An entry that is not accepted stops the step for the same reason. -/
theorem step_refused {s : State} {r : Request} {rest : List Request} {why : Refusal} (hreq : s.requests = r :: rest)
    (h : acceptEntry s r rest = .refused why) : step s = .refused why := by
  simp only [step, acceptNext, hreq, h]

theorem acceptEntry_tooWide {s : State} {r : Request} (rest : List Request) (h : 2 ^ s.config.timeW ≤ r.now) :
    acceptEntry s r rest = .refused (.timeTooWide r.now) :=
  if_pos h

theorem acceptEntry_decreases {s : State} {r : Request} (rest : List Request) (hfits : r.now < 2 ^ s.config.timeW)
    (hlt : r.now < s.nowUs) : acceptEntry s r rest = .refused (.traceTimeDecreases r.now) := by
  rw [acceptEntry, if_neg (not_le.mpr hfits), if_pos hlt]

/-- Settles O6. -/
theorem stepPerformsTheDecodedRequest : Obligations.StepPerformsTheDecodedRequest :=
  fun _ _ _ _ hreq hfits hle hdec => step_of_conforms hreq hfits hle hdec

/-- Settles O7: the width is tested first, then the order, both before the word. -/
theorem stepRefusesTimesOutOfContract : Obligations.StepRefusesTimesOutOfContract := fun _ _ rest hreq =>
  ⟨fun hwide => step_refused hreq (acceptEntry_tooWide rest hwide),
    fun hfits hlt => step_refused hreq (acceptEntry_decreases rest hfits hlt)⟩

/-! ### The snapshot (R66, R69, R136) -/

/-- Settles O14: the snapshot reads both values from one state. -/
theorem snapShowsThePair : Obligations.SnapShowsThePair := fun _ _ => rfl

/-- A snapshot writes nothing that it reads, so a second one shows the same. -/
theorem exec_snap_again {ch : Channel} {s t : State} (h : exec (.snap ch) s = .next t) :
    exec (.snap ch) t = .next t := by
  cases h
  cases ch <;> rfl

/-- A pulse with the clock in order and room in `position`, over numerics that are never non-finite, is counted. -/
theorem execEdge_completes {s : State} {ch : Channel} (hN : NeverNonFinite s.config.num)
    (htime : (s.chan ch).lastInterruptTime ≤ s.nowUs) (hroom : (s.chan ch).position < 2 ^ s.config.posW - 1) :
    ∃ d, countPulse s.config.num s.config s.nowUs (s.chan ch) = some d ∧
      exec (.edge ch) s = .next (s.setChan ch d) := by
  obtain ⟨d, hd⟩ := Option.isSome_iff_exists.mp (countPulse_isSome hN s.config s.nowUs (s.chan ch))
  have hrun := execEdge_of_le htime hroom
  rw [hd] at hrun
  exact ⟨d, hd, hrun⟩

/-- Settles O15: the pair is what the pulse wrote, and a snapshot leaves the channel it reads. -/
theorem snapshotIsOfOnePulse : Obligations.SnapshotIsOfOnePulse := by
  intro s ch hexact htime hroom
  have hN : NeverNonFinite s.config.num := by
    rw [num_eq_exactNumerics hexact]
    exact exactNumerics_isSome
  obtain ⟨d, hd, hedge⟩ := execEdge_completes hN htime hroom
  rw [num_eq_exactNumerics hexact, countPulse_exact] at hd
  cases hd
  refine ⟨_, _, hedge, snapShowsThePair _ ch, ?_, ?_, exec_snap_again (snapShowsThePair _ ch)⟩
  · rw [State.chan_setChan_same]
  · rw [State.chan_setChan_same]
    rfl

/-! ### Requests of different channels (R79, R135, R222) -/

/-- Performing a request at a time leaves the other channel and the configuration. -/
theorem perform_frame {now : Nat} {i : Instr} {ch : Channel} {s t : State} (hi : i.channel? = some ch)
    (h : perform now i s = .next t) : t.chan ch.other = s.chan ch.other ∧ t.config = s.config := by
  obtain ⟨hother, hcfg, -, -⟩ := exec_frame hi h
  exact ⟨hother.trans (State.chan_mk _ _ _ _ _ _ _), hcfg⟩

/-- Performing a request at a time does the same to its channel in every state with that channel and configuration. -/
theorem perform_of_agree {now : Nat} {i : Instr} {ch : Channel} {s s' t : State} (hi : i.channel? = some ch)
    (hcfg : s.config = s'.config) (hch : s.chan ch = s'.chan ch) (h : perform now i s = .next t) :
    ∃ t', perform now i s' = .next t' ∧ t'.chan ch = t.chan ch :=
  (channelsAreIsolated i ch hi).2 { s with nowUs := now } { s' with nowUs := now } t hcfg rfl (by simpa using hch) h

/-- Settles O39: each request finds its own channel and the configuration as the other order left them, and each channel
is left by the one request that names it. -/
theorem requestsOfDifferentChannelsCommute : Obligations.RequestsOfDifferentChannelsCommute := by
  intro i j ch a b s t u hi hj hit hju
  obtain ⟨ht_other, ht_cfg⟩ := perform_frame hi hit
  obtain ⟨hu_other, -⟩ := perform_frame hj hju
  obtain ⟨t', hjt', ht'_own⟩ := perform_of_agree hj ht_cfg ht_other hju
  obtain ⟨ht'_other, ht'_cfg⟩ := perform_frame hj hjt'
  rw [Channel.other_other] at hu_other ht'_other
  obtain ⟨u', hiu', hu'_own⟩ := perform_of_agree hi ht'_cfg.symm ht'_other.symm hit
  refine ⟨t', u', hjt', hiu', fun c => ?_⟩
  rcases Channel.eq_or_eq_other ch c with rfl | rfl
  · rw [hu'_own, hu_other]
  · rw [(perform_frame hi hiu').1, ht'_own]

/-! ### A pulse and a control tick of one channel (R74) -/

/-- The writes of a pulse of velocity `v` sampled at `now` (R130). -/
def writePulse (now : Nat) (v : Num) (c : MotorChannel) : MotorChannel :=
  { c with position := c.position + 1, interruptVelocity := v, lastInterruptTime := now }

theorem countPulse_eq_map (N : Numerics) (cfg : Config) (now : Nat) (c : MotorChannel) :
    countPulse N cfg now c =
      (pulseVelocity N cfg now c.lastInterruptTime).map fun v => writePulse now v c := by
  rw [countPulse, Option.map_eq_bind]
  rfl

theorem dirset_writePulse (now : Nat) (v : Num) (c : MotorChannel) (dir : BitVec 2) :
    dirset (writePulse now v c) dir = writePulse now v (dirset c dir) := by
  rw [dirset, dirset]
  split_ifs <;> rfl

/-- The steps before the snapshot read nothing a pulse writes. -/
theorem beforeLoop_writePulse (cfg : Config) (dir : BitVec 2) (rpm now : Nat) (v : Num) (c : MotorChannel) :
    beforeLoop cfg dir rpm (writePulse now v c) = writePulse now v (beforeLoop cfg dir rpm c) := by
  have hdisc : discontinuity cfg (writePulse now v (dirset c dir)) dir rpm = discontinuity cfg (dirset c dir) dir rpm :=
    rfl
  simp only [beforeLoop, dirset_writePulse, hdisc]
  split <;> rfl

theorem beforeLoop_lastInterruptTime (cfg : Config) (dir : BitVec 2) (rpm : Nat) (c : MotorChannel) :
    (beforeLoop cfg dir rpm c).lastInterruptTime = c.lastInterruptTime := by
  rw [beforeLoop_eq]

theorem readSnapshot_beforeLoop (cfg : Config) (dir : BitVec 2) (rpm : Nat) (c : MotorChannel) :
    readSnapshot (beforeLoop cfg dir rpm c) = readSnapshot c := by
  rw [beforeLoop_eq]
  rfl

/-- The estimates read the snapshot taken, not the registers a pulse writes. -/
theorem estimates_writePulse (N : Numerics) (cfg : Config) (snap : Snapshot) (now later : Nat) (v : Num)
    (c : MotorChannel) : estimates N cfg (writePulse later v c) snap now = estimates N cfg c snap now := rfl

/-- After its snapshot the loop reads nothing a pulse writes, and writes nothing of it. -/
theorem loopAfterSnap_writePulse (N : Numerics) (cfg : Config) (snap : Snapshot) (target now later : Nat) (v : Num)
    (c : MotorChannel) :
    loopAfterSnap N cfg snap target now (writePulse later v c) =
      (loopAfterSnap N cfg snap target now c).map (writePulse later v) := by
  rw [loopAfterSnap_eq, loopAfterSnap_eq, estimates_writePulse]
  exact (map_bind_eq fun est => map_bind_eq fun f1 => map_bind_eq fun f2 => map_bind_eq fun eff =>
    map_bind_eq fun e => map_bind_eq fun ie => map_bind_eq fun change => map_bind_eq fun deriv =>
    map_bind_eq fun u => map_bind_eq fun pwr => by
      rw [Option.map_some]
      rfl).symm

theorem loopAfterSnap_lastInterruptTime {N : Numerics} {cfg : Config} {snap : Snapshot} {target now : Nat}
    {c d : MotorChannel} (h : loopAfterSnap N cfg snap target now c = some d) :
    d.lastInterruptTime = c.lastInterruptTime := by
  rw [(loopAfterSnap_some h).1]

/-- A tick's rest after its snapshot and a pulse give the same channel in either order. -/
theorem countPulse_bind_loopAfterSnap (N : Numerics) (cfg : Config) (snap : Snapshot) (dir : BitVec 2)
    (rpm now later : Nat) (c : MotorChannel) :
    (countPulse N cfg later c).bind (fun d => (loopAfterSnap N cfg snap rpm now d).map (recordCommand dir rpm)) =
      ((loopAfterSnap N cfg snap rpm now c).map (recordCommand dir rpm)).bind (countPulse N cfg later) := by
  rw [countPulse_eq_map, Option.bind_map, Option.bind_map]
  cases hloop : loopAfterSnap N cfg snap rpm now c with
  | none => simp [loopAfterSnap_writePulse, hloop]
  | some d =>
    have htime : (recordCommand dir rpm d).lastInterruptTime = c.lastInterruptTime := by
      rw [recordCommand, loopAfterSnap_lastInterruptTime hloop]
    simp only [Function.comp_def, loopAfterSnap_writePulse, hloop, Option.bind_some,
      countPulse_eq_map, htime, Option.map_eq_bind]
    rfl

/-- Settles O30: a pulse writes the interrupt domain, of which a tick reads the snapshot alone. -/
theorem pulseCommutesWithTheRestOfATick : Obligations.PulseCommutesWithTheRestOfATick := by
  intro N cfg c snap dir rpm now later
  refine ⟨countPulse_bind_loopAfterSnap N cfg snap dir rpm now later c, ?_, ?_⟩
  · rw [countPulse_eq_map, countPulse_eq_map, Option.map_map, beforeLoop_lastInterruptTime]
    exact congrArg (Option.map · _) (funext fun v => (beforeLoop_writePulse cfg dir rpm later v c).symm)
  · rw [driveTick, loop, readSnapshot_beforeLoop]

/-! ### Running a trace to its end (R63, R80, R295) -/

theorem core_run_succ {M : Host.Core} {s t : M.State} (h : M.step s = .next t) (k : Nat) :
    M.run (k + 1) s = M.run k t := by
  rw [Host.Core.run, h]

theorem run_succ {s t : State} (h : step s = .next t) (k : Nat) :
    Host.Core.run Sys2Proof.core (k + 1) s = Host.Core.run Sys2Proof.core k t :=
  core_run_succ (M := Sys2Proof.core) h k

/-- If every state with `P` and a request performs that request and keeps `P`, its trace runs to the end and `P` holds
there. -/
theorem run_requests {P : State → Prop}
    (hstep : ∀ s r rest, P s → s.requests = r :: rest → ∃ t, step s = .next t ∧ t.requests = rest ∧ P t)
    {s : State} (hs : P s) :
    ∃ t, Host.Core.run Sys2Proof.core s.requests.length s = .next t ∧ t.requests = [] ∧ P t := by
  generalize hreq : s.requests = reqs
  induction reqs generalizing s with
  | nil => exact ⟨s, rfl, hreq, hs⟩
  | cons r rest ih =>
    obtain ⟨t, hst, htreq, ht⟩ := hstep s r rest hs hreq
    rw [List.length_cons, run_succ hst]
    exact ih ht htreq

/-- No request writes the requests to come. -/
theorem exec_requests {i : Instr} {s t : State} (h : exec i s = .next t) : t.requests = s.requests := by
  cases hi : i.channel? with
  | some ch =>
    obtain ⟨-, -, -, hreq⟩ := exec_frame hi h
    exact hreq
  | none =>
    obtain rfl := (channel?_eq_none_iff i).mp hi
    rw [execRst_next h]

/-- The times of the requests to come fit, do not precede the time base and do not decrease (R63, R92). -/
structure TimesInOrder (s : State) : Prop where
  sorted : s.requests.Pairwise (fun a b => a.now ≤ b.now)
  inRange : ∀ r ∈ s.requests, s.nowUs ≤ r.now ∧ r.now < 2 ^ s.config.timeW

/-- With the times in order, a request that completes is the step, and leaves the times in order. -/
theorem TimesInOrder.step {s t : State} {r : Request} {rest : List Request} {i : Instr} (hs : TimesInOrder s)
    (hreq : s.requests = r :: rest) (hdec : decode r.word = .ok i)
    (hexec : exec i { s with nowUs := r.now, requests := rest } = .next t) :
    step s = .next t ∧ t.requests = rest ∧ TimesInOrder t := by
  obtain ⟨hsorted, hrange⟩ := hs
  rw [hreq] at hsorted hrange
  obtain ⟨hfirst, hrest⟩ := List.pairwise_cons.mp hsorted
  obtain ⟨hle, hfits⟩ := hrange r List.mem_cons_self
  obtain ⟨hcfg, hnow⟩ := exec_config_nowUs hexec
  have htreq : t.requests = rest := exec_requests hexec
  refine ⟨(step_of_conforms hreq hfits hle hdec).trans hexec, htreq, htreq ▸ hrest, fun q hq => ?_⟩
  rw [htreq] at hq
  rw [hcfg, hnow]
  exact ⟨hfirst q hq, (hrange q (List.mem_cons_of_mem r hq)).2⟩

/-! ### A conforming trace (R80, R250) -/

/-- A request raises a channel's `position` by at most one. -/
theorem afterRequest_position_succ_le {cfg : Config} {now : Nat} {i : Instr} {c d : MotorChannel}
    (h : afterRequest cfg now i c = some d) : d.position ≤ c.position + 1 := by
  cases i with
  | stop _ _ => cases h; exact Nat.le_succ _
  | stopCode3 _ _ => cases h; exact Nat.le_succ _
  | fwd _ _ => exact (driveTick_position h).le.trans (Nat.le_succ _)
  | rev _ _ => exact (driveTick_position h).le.trans (Nat.le_succ _)
  | edge _ => exact (countPulse_position h).le
  | snap _ => cases h; exact Nat.le_succ _
  | rst => cases h; exact Nat.zero_le _

theorem exec_position_succ_le {i : Instr} {s t : State} (h : exec i s = .next t) (e : Channel) :
    (t.chan e).position ≤ (s.chan e).position + 1 := by
  cases hi : i.channel? with
  | some ch =>
    rcases Channel.eq_or_eq_other ch e with rfl | rfl
    · exact afterRequest_position_succ_le (afterRequest_of_exec hi h)
    · rw [(exec_frame hi h).1]
      exact Nat.le_succ _
  | none =>
    obtain rfl := (channel?_eq_none_iff i).mp hi
    rw [execRst_next h]
    cases e <;> exact Nat.zero_le _

/-- A state whose trace is within the host contract and too short to fill `position`. -/
structure TraceConforms (s : State) : Prop where
  inv : s.Inv
  finite : NeverNonFinite s.config.num
  times : TimesInOrder s
  decodes : ∀ r ∈ s.requests, ∃ i, decode r.word = .ok i
  room : ∀ ch, (s.chan ch).position + s.requests.length < 2 ^ s.config.posW

theorem TraceConforms.step {s : State} {r : Request} {rest : List Request} (hs : TraceConforms s)
    (hreq : s.requests = r :: rest) : ∃ t, step s = .next t ∧ t.requests = rest ∧ TraceConforms t := by
  obtain ⟨hinv, hN, htimes, hdecodes, hroom⟩ := hs
  obtain ⟨i, hdec⟩ := hdecodes r (hreq ▸ List.mem_cons_self)
  obtain ⟨hle, hfits⟩ := htimes.inRange r (hreq ▸ List.mem_cons_self)
  simp only [hreq, List.length_cons] at hroom
  have hfree : ∀ ch, (s.chan ch).position < 2 ^ s.config.posW - 1 := fun ch => by
    have hlt := hroom ch
    omega
  have hsampled := hinv.sample rest hfits hle
  obtain ⟨t, hexec⟩ := exec_completes (i := i) (s := { s with nowUs := r.now, requests := rest }) hN
    hsampled.channel fun ch _ => by simpa using hfree ch
  obtain ⟨hcfg, -⟩ := exec_config_nowUs hexec
  obtain ⟨hst, htreq, httimes⟩ := htimes.step hreq hdec hexec
  refine ⟨t, hst, htreq,
    { inv := exec_inv (decode_wellFormed hdec) hsampled hexec
      finite := hcfg ▸ hN
      times := httimes
      decodes := fun q hq => hdecodes q (hreq ▸ List.mem_cons_of_mem r (htreq ▸ hq))
      room := fun ch => ?_ }⟩
  have hgrow : (t.chan ch).position ≤ (s.chan ch).position + 1 := by simpa using exec_position_succ_le hexec ch
  rw [htreq, show t.config = s.config from hcfg]
  have hlt := hroom ch
  omega

/-- Settles O36: each entry is performed, and what remains is a shorter conforming trace. -/
theorem conformingTraceRunsToItsEnd : Obligations.ConformingTraceRunsToItsEnd := by
  intro s hinv hN hsorted hconf hroom
  have hs : TraceConforms s :=
    { inv := hinv
      finite := hN
      times := ⟨hsorted, fun r hr => by obtain ⟨hle, hfits, -⟩ := hconf r hr; exact ⟨hle, hfits⟩⟩
      decodes := fun r hr => by obtain ⟨-, -, hdec⟩ := hconf r hr; exact hdec
      room := hroom }
  obtain ⟨t, hrun, hnone, ht⟩ := run_requests (fun _ _ _ hs hreq => hs.step hreq) hs
  exact ⟨t, hrun, hnone, ht.inv⟩

/-! ### The pulses of an encoder signal (R62, R131, R134) -/

theorem decode_encode_edge (ch : Channel) : decode (encode (.edge ch)) = .ok (.edge ch) := by
  cases ch <;> rfl

theorem countPulse_lastInterruptTime {N : Numerics} {cfg : Config} {now : Nat} {c d : MotorChannel}
    (h : countPulse N cfg now c = some d) : d.lastInterruptTime = now := by
  obtain ⟨v, -, rfl⟩ := countPulse_some h
  rfl

/-- A state whose requests are pulses of channel `ch` that bring its `position` to `total`. -/
structure PulsesAhead (ch : Channel) (total : Nat) (s : State) : Prop where
  finite : NeverNonFinite s.config.num
  times : TimesInOrder s
  pulses : ∀ r ∈ s.requests, r.word = encode (.edge ch)
  lastPulse : (s.chan ch).lastInterruptTime ≤ s.nowUs
  count : (s.chan ch).position + s.requests.length = total
  fits : total < 2 ^ s.config.posW

theorem PulsesAhead.step {ch : Channel} {total : Nat} {s : State} {r : Request} {rest : List Request}
    (hs : PulsesAhead ch total s) (hreq : s.requests = r :: rest) :
    ∃ t, step s = .next t ∧ t.requests = rest ∧ PulsesAhead ch total t := by
  obtain ⟨hN, htimes, hpulses, hlast, hcount, hfits⟩ := hs
  have hdec : decode r.word = .ok (.edge ch) :=
    (hpulses r (hreq ▸ List.mem_cons_self)) ▸ decode_encode_edge ch
  have hle := (htimes.inRange r (hreq ▸ List.mem_cons_self)).1
  rw [hreq, List.length_cons] at hcount
  have hfree : (s.chan ch).position < 2 ^ s.config.posW - 1 := by omega
  obtain ⟨d, hd, hexec⟩ := execEdge_completes (ch := ch) (s := { s with nowUs := r.now, requests := rest }) hN
    (by simpa using hlast.trans hle) (by simpa using hfree)
  rw [State.chan_mk] at hd
  obtain ⟨hst, htreq, httimes⟩ := htimes.step hreq hdec hexec
  refine ⟨_, hst, htreq,
    { finite := by rw [State.setChan_config]; exact hN
      times := httimes
      pulses := fun q hq => hpulses q (hreq ▸ List.mem_cons_of_mem r (htreq ▸ hq))
      lastPulse := by rw [State.chan_setChan_same, State.setChan_nowUs, countPulse_lastInterruptTime hd]
      count := by rw [htreq, State.chan_setChan_same, countPulse_position hd]; omega
      fits := by rw [State.setChan_config]; exact hfits }⟩

/-- Pulses within the host contract are all counted. -/
theorem run_pulses {ch : Channel} {total : Nat} {s : State} (hs : PulsesAhead ch total s) :
    ∃ t, Host.Core.run Sys2Proof.core s.requests.length s = .next t ∧ (t.chan ch).position = total := by
  obtain ⟨t, hrun, hnone, ht⟩ := run_requests (fun _ _ _ hs hreq => hs.step hreq) hs
  have hcount := ht.count
  rw [hnone] at hcount
  exact ⟨t, hrun, hcount⟩

theorem risingEdge_iff (before after : BitVec 1) : risingEdge before after = true ↔ (before, after) = (0, 1) := by
  simp [risingEdge]

/-- The requests of a sampled signal are pulses at the times of some of its samples, in order. -/
theorem encoderRequests_sublist (ch : Channel) (before : BitVec 1) (samples : List (Nat × BitVec 1)) :
    (encoderRequests ch before samples).Sublist (samples.map fun p => ⟨p.1, encode (.edge ch)⟩) := by
  induction samples generalizing before with
  | nil => exact List.Sublist.slnil
  | cons p samples ih =>
    rw [encoderRequests, List.map_cons]
    split
    · exact (ih p.2).cons_cons _
    · exact (ih p.2).cons _

/-- There is one request for each step of the signal from low to high. -/
theorem encoderRequests_length (ch : Channel) (before : BitVec 1) (samples : List (Nat × BitVec 1)) :
    (encoderRequests ch before samples).length =
      (((before :: samples.map Prod.snd).zip (samples.map Prod.snd)).filter (· = (0, 1))).length := by
  induction samples generalizing before with
  | nil => rfl
  | cons p samples ih =>
    rw [encoderRequests, List.map_cons, List.zip_cons_cons, List.filter_cons]
    by_cases hrise : (before, p.2) = (0, 1)
    · rw [if_pos ((risingEdge_iff _ _).mpr hrise), if_pos (decide_eq_true hrise), List.length_cons, List.length_cons,
        ih]
    · rw [if_neg fun h => hrise ((risingEdge_iff _ _).mp h), if_neg fun h => hrise (of_decide_eq_true h), ih]

/-- Settles O13: the requests are one pulse per rising edge, and each is counted. -/
theorem eachRisingEdgeIsCountedOnce : Obligations.EachRisingEdgeIsCountedOnce := by
  intro s ch before samples hN hreq hrange hsorted hlast hroom
  have hsub := encoderRequests_sublist ch before samples
  rw [← hreq] at hsub
  have hmem : ∀ r ∈ s.requests, ∃ p ∈ samples, (⟨p.1, encode (.edge ch)⟩ : Request) = r := fun r hr =>
    List.mem_map.mp (hsub.subset hr)
  have hpulses := (List.pairwise_map (f := fun p : Nat × BitVec 1 => (⟨p.1, encode (.edge ch)⟩ : Request))
    (R := fun a b => a.now ≤ b.now)).mpr hsorted
  have hlen : s.requests.length ≤ samples.length := hsub.length_le.trans (List.length_map _).le
  rw [← encoderRequests_length ch, ← hreq]
  refine run_pulses
    { finite := hN
      times := ⟨hpulses.sublist hsub, fun r hr => ?_⟩
      pulses := fun r hr => ?_
      lastPulse := hlast
      count := rfl
      fits := by omega }
  · obtain ⟨p, hp, rfl⟩ := hmem r hr
    exact hrange p hp
  · obtain ⟨p, -, rfl⟩ := hmem r hr
    rfl

end Sys2Proof.Machine

/-! PROOF. The statements of 30_encoding.md: the decoder and the encoder against each other, the opcode table and the
reserved words (R92 to R100), the text of a request (R104 to R107), and the host's command link (R110 to R115). -/

namespace Sys2Proof.Machine

/-! ### The fields of an encoded word (R93, R94) -/

theorem channelOfBit_channelBit (ch : Channel) : channelOfBit (channelBit ch) = ch := by cases ch <;> rfl

theorem channelBit_channelOfBit (b : BitVec 1) : channelBit (channelOfBit b) = b := by
  revert b; decide

section
variable (ch : Channel) (dir : BitVec 2) (rpm : Nat)

theorem rpmField_formatC : rpmField (formatC ch dir rpm) = BitVec.ofNat 9 rpm :=
  BitVec.extractLsb'_append_eq_right

theorem dirField_formatC : dirField (formatC ch dir rpm) = dir :=
  (BitVec.extractLsb'_append_eq_of_le (by decide)).trans BitVec.extractLsb'_append_eq_right

theorem zField_formatC : zField (formatC ch dir rpm) = 0#1 :=
  (BitVec.extractLsb'_append_eq_of_le (by decide)).trans <|
    (BitVec.extractLsb'_append_eq_of_le (by decide)).trans BitVec.extractLsb'_append_eq_right

theorem chField_formatC : chField (formatC ch dir rpm) = channelBit ch :=
  (BitVec.extractLsb'_append_eq_of_le (by decide)).trans <|
    (BitVec.extractLsb'_append_eq_of_le (by decide)).trans <|
      (BitVec.extractLsb'_append_eq_of_le (by decide)).trans BitVec.extractLsb'_append_eq_right

theorem kindField_formatC : kindField (formatC ch dir rpm) = 0#3 :=
  (BitVec.extractLsb'_append_eq_of_le (by decide)).trans <|
    (BitVec.extractLsb'_append_eq_of_le (by decide)).trans <|
      (BitVec.extractLsb'_append_eq_of_le (by decide)).trans BitVec.extractLsb'_append_eq_left

end

section
variable (kind : BitVec 3) (ch : Channel)

theorem zeroField_formatE : zeroField (formatE kind ch) = 0#12 :=
  BitVec.extractLsb'_append_eq_right

theorem chField_formatE : chField (formatE kind ch) = channelBit ch :=
  (BitVec.extractLsb'_append_eq_of_le (by decide)).trans BitVec.extractLsb'_append_eq_right

theorem kindField_formatE : kindField (formatE kind ch) = kind :=
  (BitVec.extractLsb'_append_eq_of_le (by decide)).trans BitVec.extractLsb'_append_eq_left
end

/-! ### A word is the encoding of its fields (R93, R94) -/

/-- The five fields of format C are the whole word. -/
theorem append_fieldsC (w : ReqWord) :
    kindField w ++ chField w ++ zField w ++ dirField w ++ rpmField w = w := by
  simp only [kindField, chField, zField, dirField, rpmField, BitVec.extractLsb'_append_extractLsb'_eq_extractLsb',
    BitVec.extractLsb'_eq_self]

/-- The three fields of format E are the whole word. -/
theorem append_fieldsE (w : ReqWord) : kindField w ++ chField w ++ zeroField w = w := by
  simp only [kindField, chField, zeroField, BitVec.extractLsb'_append_extractLsb'_eq_extractLsb',
    BitVec.extractLsb'_eq_self]

theorem formatC_fields {w : ReqWord} (hkind : kindField w = 0b000#3) (hz : zField w = 0#1) :
    formatC (channelOfBit (chField w)) (dirField w) (rpmField w).toNat = w := by
  rw [formatC, channelBit_channelOfBit, BitVec.ofNat_toNat, BitVec.setWidth_eq, ← hkind, ← hz, append_fieldsC]

theorem formatE_fields {w : ReqWord} (hzero : zeroField w = 0#12) :
    formatE (kindField w) (channelOfBit (chField w)) = w := by
  rw [formatE, channelBit_channelOfBit, ← hzero, append_fieldsE]

/-! ### Decoding -/

theorem decode_formatC (ch : Channel) (dir : BitVec 2) {rpm : Nat} (h : rpmFits rpm = true) :
    decode (formatC ch dir rpm) = .ok (controlRequest ch dir rpm) := by
  have hrpm : (BitVec.ofNat 9 rpm).toNat = rpm := Nat.mod_eq_of_lt (of_decide_eq_true h)
  rw [decode, if_pos (kindField_formatC ..), if_pos (zField_formatC ..), chField_formatC, channelOfBit_channelBit,
    dirField_formatC, rpmField_formatC, hrpm]

/-- Settles O1: a format C word is read field by field; the words of `EDGE`, `SNAP` and `RST` are five fixed ones. -/
theorem decodeEncodeRoundTrip : Obligations.DecodeEncodeRoundTrip := by
  intro i hi
  cases i with
  | stop ch rpm => exact decode_formatC ch 0#2 hi
  | stopCode3 ch rpm => exact decode_formatC ch 3#2 hi
  | fwd ch rpm => exact decode_formatC ch 1#2 hi
  | rev ch rpm => exact decode_formatC ch 2#2 hi
  | edge ch => exact decode_encode_edge ch
  | snap ch => cases ch <;> rfl
  | rst => rfl

theorem encode_controlRequest (ch : Channel) (dir : BitVec 2) (rpm : Nat) :
    encode (controlRequest ch dir rpm) = formatC ch dir rpm := by
  have hdir : ∀ d : BitVec 2, d ≠ 1#2 → d ≠ 2#2 → d ≠ 0#2 → d = 3#2 := by decide
  rw [controlRequest]
  split_ifs with h1 h2 h0
  · rw [h1, encode]
  · rw [h2, encode]
  · rw [h0, encode]
  · rw [hdir dir h1 h2 h0, encode]

/-- On each branch of the decoder that answers a request, the fields tested and the fields read make up the word. -/
theorem encode_of_decode {w : ReqWord} {i : Instr} (h : decode w = .ok i) : encode i = w := by
  simp only [decode] at h
  split_ifs at h with hkind hz hkind hzero hkind hzero hkind hzero <;> cases h
  · rw [encode_controlRequest, formatC_fields hkind hz]
  · rw [encode, ← hkind, formatE_fields hzero]
  · rw [encode, ← hkind, formatE_fields hzero]
  · obtain ⟨hzero, hch⟩ := hzero
    have hM1 : channelOfBit (chField w) = .m1 := by rw [hch]; rfl
    rw [encode, ← hkind, ← hM1, formatE_fields hzero]

/-- Settles O2: the fields the decoder keeps, and the zeros it asks for, are the whole word. -/
theorem decodedWordIsTheEncoding : Obligations.DecodedWordIsTheEncoding :=
  fun _ _ h => ⟨decode_wellFormed h, encode_of_decode h⟩

/-- Settles O4: the words are computed, and O1 decodes each back. -/
theorem exampleWordsEncodeAndDecode : Obligations.ExampleWordsEncodeAndDecode := by
  intro p hp
  have ⟨hwf, hword⟩ : p.1.WellFormed ∧ encode p.1 = p.2 := by revert p; decide
  exact ⟨hword, hword ▸ decodeEncodeRoundTrip p.1 hwf⟩

/-! ### The opcode table (R95) -/

theorem row_mem_opcodeTable (i : Instr) : i.row ∈ opcodeTable := by
  cases i <;> simp [opcodeTable, Instr.row]

theorem encode_and_mask (i : Instr) : encode i &&& i.row.mask = i.row.pattern := by
  cases i with
  | stop ch rpm => exact Laws.MatchesItsRow.stop ch rpm
  | stopCode3 ch rpm => exact Laws.MatchesItsRow.stopCode3 ch rpm
  | fwd ch rpm => exact Laws.MatchesItsRow.fwd ch rpm
  | rev ch rpm => exact Laws.MatchesItsRow.rev ch rpm
  | edge ch => exact Laws.MatchesItsRow.edge ch
  | snap ch => exact Laws.MatchesItsRow.snap ch
  | rst => exact Laws.MatchesItsRow.rst

/-- Where a mask has only ones, the field of a matching word is the pattern's. -/
theorem extractLsb'_of_match {w mask pattern : ReqWord} {start len : Nat} (h : w &&& mask = pattern)
    (hmask : mask.extractLsb' start len = BitVec.allOnes len) :
    w.extractLsb' start len = pattern.extractLsb' start len := by
  rw [← h, BitVec.extractLsb'_and, hmask, BitVec.and_allOnes]

/-- The mask of a format C row leaves `kind`, `z` and `dir`. -/
theorem decode_of_match_formatC {w pattern : ReqWord} (h : w &&& 0xEE00#16 = pattern)
    (hkind : kindField pattern = 0b000#3) (hz : zField pattern = 0#1) :
    decode w = .ok (controlRequest (channelOfBit (chField w)) (dirField pattern) (rpmField w).toNat) := by
  have kind : kindField w = kindField pattern := extractLsb'_of_match h rfl
  have z : zField w = zField pattern := extractLsb'_of_match h rfl
  have dir : dirField w = dirField pattern := extractLsb'_of_match h rfl
  rw [decode, if_pos (kind.trans hkind), if_pos (z.trans hz), dir]

/-- The mask of a format E row leaves `kind` and `zero`. -/
theorem eq_formatE_of_match {w pattern : ReqWord} (h : w &&& 0xEFFF#16 = pattern)
    (hzero : zeroField pattern = 0#12) : ∃ ch, w = formatE (kindField pattern) ch := by
  have kind : kindField w = kindField pattern := extractLsb'_of_match h rfl
  have zero : zeroField w = zeroField pattern := extractLsb'_of_match h rfl
  exact ⟨_, by rw [← kind, formatE_fields (zero.trans hzero)]⟩

theorem exists_decode_of_match {w : ReqWord} {r : TableRow} (hr : r ∈ opcodeTable) (h : w &&& r.mask = r.pattern) :
    ∃ i, decode w = .ok i ∧ i.row = r := by
  simp only [opcodeTable, List.mem_cons, List.not_mem_nil, or_false] at hr
  rcases hr with rfl | rfl | rfl | rfl | rfl | rfl | rfl
  · exact ⟨_, decode_of_match_formatC h rfl rfl, rfl⟩
  · exact ⟨_, decode_of_match_formatC h rfl rfl, rfl⟩
  · exact ⟨_, decode_of_match_formatC h rfl rfl, rfl⟩
  · exact ⟨_, decode_of_match_formatC h rfl rfl, rfl⟩
  · obtain ⟨ch, rfl⟩ := eq_formatE_of_match h rfl
    exact ⟨.edge ch, decodeEncodeRoundTrip (.edge ch) rfl, rfl⟩
  · obtain ⟨ch, rfl⟩ := eq_formatE_of_match h rfl
    exact ⟨.snap ch, decodeEncodeRoundTrip (.snap ch) rfl, rfl⟩
  · obtain rfl : w = 0x6000#16 := BitVec.and_allOnes.symm.trans h
    exact ⟨.rst, rfl, rfl⟩

/-- Settles O3: a decoded word is the encoding of its request, and two rows that one word matches are both the row of the
one request it decodes to. -/
theorem decoderAgreesWithTheOpcodeTable : Obligations.DecoderAgreesWithTheOpcodeTable := by
  refine ⟨fun w i h => ⟨row_mem_opcodeTable i, ?_⟩, fun w r => exists_decode_of_match, fun w => ?_⟩
  · rw [← encode_of_decode h, encode_and_mask]
  · have distinct : opcodeTable.Pairwise (· ≠ ·) := by decide
    refine distinct.imp_of_mem fun {r q} hr hq hne ⟨hmatch, hmatch'⟩ => hne ?_
    obtain ⟨i, hi, rfl⟩ := exists_decode_of_match hr hmatch
    obtain ⟨j, hj, rfl⟩ := exists_decode_of_match hq hmatch'
    obtain rfl : i = j := Except.ok.inj (hi.symm.trans hj)
    rfl

/-! ### The reserved words (R100) -/

section
variable (w : ReqWord)

theorem kindField_toNat : (kindField w).toNat = w.toNat / 8192 := by
  rw [kindField, BitVec.extractLsb'_toNat, Nat.shiftRight_eq_div_pow]
  omega

theorem chField_toNat : (chField w).toNat = w.toNat / 4096 % 2 := by
  rw [chField, BitVec.extractLsb'_toNat, Nat.shiftRight_eq_div_pow]

theorem zField_toNat : (zField w).toNat = w.toNat / 2048 % 2 := by
  rw [zField, BitVec.extractLsb'_toNat, Nat.shiftRight_eq_div_pow]

theorem zeroField_toNat : (zeroField w).toNat = w.toNat % 4096 := by
  rw [zeroField, BitVec.extractLsb'_toNat, Nat.shiftRight_zero]

/-- A word is reserved when its `kind` is, or when a field that its `kind` fixes at 0 is not. -/
theorem decode_error_iff : (∃ why, decode w = .error why) ↔
    4 ≤ (kindField w).toNat ∨ (kindField w = 0b000#3 ∧ zField w ≠ 0#1) ∨
      ((kindField w = 0b001#3 ∨ kindField w = 0b010#3) ∧ zeroField w ≠ 0#12) ∨
      (kindField w = 0b011#3 ∧ ¬ (zeroField w = 0#12 ∧ chField w = 0#1)) := by
  have kinds : ∀ k : BitVec 3, k ≠ 0b000#3 → k ≠ 0b001#3 → k ≠ 0b010#3 → k ≠ 0b011#3 → 4 ≤ k.toNat := by decide
  rw [decode]
  split_ifs <;> simp [*]
end

theorem acceptEntry_reserved {s : State} {r : Request} {why : Reserved} (rest : List Request)
    (hfits : r.now < 2 ^ s.config.timeW) (hle : s.nowUs ≤ r.now) (hdec : decode r.word = .error why) :
    acceptEntry s r rest = .refused (.reservedWord why) := by
  rw [acceptEntry, if_neg (not_le.mpr hfits), if_neg (not_lt.mpr hle), hdec]

/-- Settles O5: the fields of `decode_error_iff` as numbers, and the word's test after the two of an entry's time. -/
theorem reservedWordsAreRefused : Obligations.ReservedWordsAreRefused := by
  refine ⟨fun w => ?_, fun s r rest why hreq hfits hle hdec =>
    step_refused hreq (acceptEntry_reserved rest hfits hle hdec)⟩
  rw [decode_error_iff]
  simp only [ne_eq, ← BitVec.toNat_inj, kindField_toNat, chField_toNat, zField_toNat, zeroField_toNat,
    BitVec.toNat_ofNat]
  omega

/-! ### Decimal numbers (R104, R110) -/

theorem decimal_of_ne_zero {n : Nat} (h : n ≠ 0) :
    decimal n = ((Nat.digits 10 n).map Nat.digitChar).reverse := if_neg h

/-- The model's decimals are those of the library, which proves them readable. -/
theorem decimal_eq_toDigits (n : Nat) : decimal n = Nat.toDigits 10 n := by
  induction n using Nat.strongRecOn with
  | ind n ih =>
    rcases Nat.eq_zero_or_pos n with rfl | hpos
    · rfl
    rcases Nat.lt_or_ge n 10 with hlt | hge
    · rw [decimal_of_ne_zero hpos.ne', Nat.digits_of_lt 10 n hpos.ne' hlt, Nat.toDigits_of_lt_base hlt]
      rfl
    · have hdiv : decimal (n / 10) = ((Nat.digits 10 (n / 10)).map Nat.digitChar).reverse :=
        decimal_of_ne_zero (by omega)
      rw [decimal_of_ne_zero hpos.ne', Nat.digits_def' (by decide) hpos, List.map_cons, List.reverse_cons,
        ← hdiv, ih _ (by omega), Nat.toDigits_of_base_le (by decide) hge]

theorem isDigit_of_mem_decimal {n : Nat} {c : Char} (h : c ∈ decimal n) : c.isDigit = true :=
  Nat.isDigit_of_mem_toDigits (b := 10) (n := n) (by decide) (by decide) (decimal_eq_toDigits n ▸ h)

theorem decimal_ne_nil (n : Nat) : decimal n ≠ [] :=
  decimal_eq_toDigits n ▸ Nat.toDigits_ne_nil

theorem readDecimal_decimal (n : Nat) : readDecimal (decimal n) = some n := by
  have value : (decimal n).foldl (fun acc c => 10 * acc + digitValue c) 0 = n := by
    rw [decimal_eq_toDigits]
    exact Nat.ofDigitChars_eq_foldl.symm.trans Nat.ofDigitChars_ten_toDigits
  rw [readDecimal, if_pos ⟨decimal_ne_nil n, List.all_eq_true.mpr fun _ => isDigit_of_mem_decimal⟩, value]

/-! ### The tokens of a line (R104) -/

/-- A text of letters and digits: one word of a trace line. -/
def isWord (t : Text) : Bool := !t.isEmpty && t.all Char.isAlphanum

theorem isWord_iff {t : Text} : isWord t = true ↔ t ≠ [] ∧ ∀ c ∈ t, c.isAlphanum = true := by
  simp [isWord]

theorem isWord_channelName (ch : Channel) : isWord (channelName ch) = true := by cases ch <;> rfl

theorem isWord_decimal (n : Nat) : isWord (decimal n) = true :=
  isWord_iff.mpr ⟨decimal_ne_nil n, fun c hc => by simp [Char.isAlphanum, isDigit_of_mem_decimal hc]⟩

/-- No letter or digit ends a word. -/
theorem tokensFrom_cons {c : Char} (h : c.isAlphanum = true) (acc cs : Text) :
    tokensFrom acc (c :: cs) = tokensFrom (c :: acc) cs := by
  have other {sep : Char} (hsep : sep.isAlphanum = false) : c ≠ sep := fun heq =>
    Bool.false_ne_true (hsep.symm.trans (heq ▸ h))
  rw [tokensFrom, if_neg (other rfl), if_neg (other rfl), if_neg (other rfl), if_neg (other rfl), if_neg (other rfl)]

/-- The characters of a word are gathered, the last one in front. -/
theorem tokensFrom_append {t : Text} (h : ∀ c ∈ t, c.isAlphanum = true) (acc rest : Text) :
    tokensFrom acc (t ++ rest) = tokensFrom (t.reverse ++ acc) rest := by
  induction t generalizing acc with
  | nil => rfl
  | cons c cs ih =>
    obtain ⟨hc, hcs⟩ := List.forall_mem_cons.mp h
    rw [List.cons_append, tokensFrom_cons hc, ih hcs, List.reverse_cons, List.append_assoc]
    rfl

section
variable {t : Text} (h : isWord t = true)
include h

/-- After a word comes what is left of the line, that word read. -/
theorem tokensFrom_word (rest : Text) : tokensFrom [] (t ++ rest) = tokensFrom t.reverse rest := by
  rw [tokensFrom_append (isWord_iff.mp h).2, List.append_nil]

theorem wordToken_reverse : wordToken t.reverse = [.word t] := by
  rw [wordToken, if_neg (List.reverse_eq_nil_iff.not.mpr (isWord_iff.mp h).1), List.reverse_reverse]

theorem tokens_word : tokensFrom [] t = [.word t] := by
  rw [← List.append_nil t, tokensFrom_word h, tokensFrom, wordToken_reverse h, List.append_nil]

theorem tokens_word_space (rest : Text) : tokensFrom [] (t ++ ' ' :: rest) = .word t :: tokensFrom [] rest := by
  rw [tokensFrom_word h]
  exact congrArg (· ++ tokensFrom [] rest) (wordToken_reverse h)

theorem tokens_word_comma (rest : Text) :
    tokensFrom [] (t ++ ',' :: ' ' :: rest) = .word t :: .comma :: tokensFrom [] rest := by
  rw [tokensFrom_word h]
  exact congrArg (· ++ .comma :: tokensFrom [] rest) (wordToken_reverse h)
end

/-! ### Each form of a request is read back (R104, R105, R107) -/

theorem readChannel_channelName (ch : Channel) : readChannel (channelName ch) = some ch := by
  cases ch <;> rfl

theorem readRpm_decimal {rpm : Nat} (h : rpmFits rpm = true) : readRpm (decimal rpm) = some rpm := by
  rw [readRpm, readDecimal_decimal, Option.bind_some, if_pos h]

theorem readDir_decimal {n : Nat} (h : n < 4) : readDir (decimal n) = some (BitVec.ofNat 2 n) := by
  rw [readDir, readDecimal_decimal, Option.bind_some, if_pos h]

section
variable {m : Text} (hm : isWord m = true) (ch : Channel)
include hm

/-- `m ch`. -/
theorem read_channelForm :
    readRequest (tokensFrom [] (m ++ ' ' :: channelName ch)) = readChannelRequest m ch := by
  rw [tokens_word_space hm, tokens_word (isWord_channelName ch), readRequest, readChannel_channelName]
  rfl

/-- `m ch, rpm`. -/
theorem read_driveForm {rpm : Nat} (h : rpmFits rpm = true) :
    readRequest (tokensFrom [] (m ++ ' ' :: (channelName ch ++ ',' :: ' ' :: decimal rpm))) =
      readDriveRequest m ch rpm := by
  rw [tokens_word_space hm, tokens_word_comma (isWord_channelName ch), tokens_word (isWord_decimal rpm), readRequest,
    readChannel_channelName, readRpm_decimal h]
  rfl
end

/-- `TICK ch, dir, rpm`, the control request of that direction code. -/
theorem read_tickText (ch : Channel) {dir rpm : Nat} (hdir : dir < 4) (h : rpmFits rpm = true) :
    readRequest (tokensFrom [] (tickText ch dir rpm)) =
      some (.issue (controlRequest ch (BitVec.ofNat 2 dir) rpm)) := by
  have text : tickText ch dir rpm = ['T', 'I', 'C', 'K'] ++ ' ' ::
      (channelName ch ++ ',' :: ' ' :: (decimal dir ++ ',' :: ' ' :: decimal rpm)) := by
    simp [tickText]
  rw [text, tokens_word_space rfl, tokens_word_comma (isWord_channelName ch),
    tokens_word_comma (isWord_decimal dir), tokens_word (isWord_decimal rpm), readRequest, readThreeOperands,
    if_pos rfl, readChannel_channelName, readDir_decimal hdir, readRpm_decimal h]
  rfl

/-- Settles O43: `STOP` alone has two forms, and every other request the one form it is printed in. -/
theorem disassemblyIsReadBack : Obligations.DisassemblyIsReadBack := by
  intro i hi
  cases i with
  | stop ch rpm =>
    rw [disassemble]
    split_ifs with hzero
    · rw [hzero]
      exact read_channelForm (m := ['S', 'T', 'O', 'P']) rfl ch
    · exact read_tickText ch (by decide) hi
  | stopCode3 ch rpm => exact read_tickText ch (by decide) hi
  | fwd ch rpm =>
    rw [disassemble, List.append_assoc, List.append_assoc]
    exact read_driveForm (m := ['F', 'W', 'D']) rfl ch hi
  | rev ch rpm =>
    rw [disassemble, List.append_assoc, List.append_assoc]
    exact read_driveForm (m := ['R', 'E', 'V']) rfl ch hi
  | edge ch => exact read_channelForm (m := ['E', 'D', 'G', 'E']) rfl ch
  | snap ch => exact read_channelForm (m := ['S', 'N', 'A', 'P']) rfl ch
  | rst => rfl

/-! ### The command link (R110 to R115) -/

theorem splitAtChar_of_not_mem {sep : Char} {t : Text} (h : sep ∉ t) : splitAtChar sep t = [t] := by
  induction t with
  | nil => rfl
  | cons c cs ih =>
    obtain ⟨hne, hcs⟩ := not_or.mp (List.mem_cons.not.mp h)
    rw [splitAtChar, if_neg (Ne.symm hne), ih hcs]

theorem splitAtChar_append {sep : Char} {t : Text} (h : sep ∉ t) (rest : Text) :
    splitAtChar sep (t ++ sep :: rest) = t :: splitAtChar sep rest := by
  induction t with
  | nil => exact if_pos rfl
  | cons c cs ih =>
    obtain ⟨hne, hcs⟩ := not_or.mp (List.mem_cons.not.mp h)
    rw [List.cons_append, splitAtChar, if_neg (Ne.symm hne), ih hcs]

theorem comma_not_mem_decimal (n : Nat) : ',' ∉ decimal n := fun h =>
  absurd (isDigit_of_mem_decimal h) (by decide)

theorem linkField_decimal (n : Nat) : linkField (decimal n) = some n := by
  rw [linkField, readDecimal_decimal]

theorem linkDir_le (n : Nat) : linkDir n ≤ 2 := by
  rw [linkDir]
  split_ifs with h
  · exact h
  · exact Nat.le_of_lt_succ (Config.linkDirClamp n).isLt

theorem linkDir_of_le {n : Nat} (h : n ≤ 2) : linkDir n = n := if_pos h

theorem linkRpm_le (n : Nat) : linkRpm n ≤ 500 := Nat.min_le_right _ _

theorem linkRpm_of_le {n : Nat} (h : n ≤ 500) : linkRpm n = n := Nat.min_eq_left h

/-- Whatever the link reads has passed through its clamps. -/
theorem parseFrame_eq_some {frame : Text} {c : LinkCommand} (h : parseFrame frame = some c) :
    ∃ dL rL dR rR, c = ⟨linkDir dL, linkRpm rL, linkDir dR, linkRpm rR⟩ := by
  rw [parseFrame] at h
  split at h
  · simp only [Option.bind_eq_bind, Option.bind_eq_some_iff] at h
    obtain ⟨dL, -, rL, -, dR, -, rR, -, hc⟩ := h
    exact ⟨dL, rL, dR, rR, (Option.some.inj hc).symm⟩
  · cases h

theorem split_frameText (c : LinkCommand) :
    splitAtChar ',' (frameText c) = [decimal c.dirL, decimal c.rpmL, decimal c.dirR, decimal c.rpmR] := by
  simp only [frameText, List.append_assoc, List.cons_append, List.nil_append,
    splitAtChar_append (comma_not_mem_decimal _), splitAtChar_of_not_mem (comma_not_mem_decimal _)]

theorem parseFrame_frameText (c : LinkCommand) :
    parseFrame (frameText c) = some ⟨linkDir c.dirL, linkRpm c.rpmL, linkDir c.dirR, linkRpm c.rpmR⟩ := by
  rw [parseFrame, split_frameText]
  simp only [linkField_decimal]
  rfl

/-- Settles O44: every delivered tuple is clamped, and the clamps keep a tuple in range. -/
theorem linkDeliversTuplesInRange : Obligations.LinkDeliversTuplesInRange := by
  refine ⟨fun frame c h => ?_, fun c hdL hrL hdR hrR => ?_⟩
  · obtain ⟨dL, rL, dR, rR, rfl⟩ := parseFrame_eq_some h
    exact ⟨linkDir_le dL, linkRpm_le rL, linkDir_le dR, linkRpm_le rR⟩
  · rw [parseFrame_frameText, linkDir_of_le hdL, linkRpm_of_le hrL, linkDir_of_le hdR, linkRpm_of_le hrR]

theorem linkTick_of_timedOut {cfg : Config} {nowMs : Nat} {l : LinkState}
    (h : cfg.commandTimeoutMs < nowMs - l.lastValidMs) : linkTick cfg nowMs l = [.stop .m1 0, .stop .m2 0] :=
  if_pos (decide_eq_true h)

/-- Settles O45: the two requests are stops, and the second leaves the channel the first stopped. -/
theorem linkTimeoutStopsBothMotors : Obligations.LinkTimeoutStopsBothMotors := by
  intro cfg l nowMs s h
  refine ⟨_, _, _, _, linkTick_of_timedOut h, rfl, rfl, fun ch => ?_⟩
  cases ch <;> exact ⟨rfl, rfl, rfl⟩

end Sys2Proof.Machine

/-! PROOF. The statements of 40_encoder_counter.md: what one pulse writes and where it stops (R24, R130), and what a
train of pulses leaves (R134). -/

namespace Sys2Proof.Machine

/-! ### One pulse (R24, R130) -/

/-- A pulse with the clock behind the last one is refused, whatever `position` is (U3). -/
theorem execEdge_refused {ch : Channel} {s : State} (h : s.nowUs < (s.chan ch).lastInterruptTime) :
    execEdge ch s = .refused (.edgeBeforeLastEdge ch) := by
  simp [execEdge, timeInOrder, h]

/-- A pulse with the clock in order and no room in `position` faults (U1). -/
theorem execEdge_overflow {ch : Channel} {s : State} (htime : (s.chan ch).lastInterruptTime ≤ s.nowUs)
    (hfull : 2 ^ s.config.posW - 1 ≤ (s.chan ch).position) : execEdge ch s = .fault (.positionOverflow ch) := by
  simp [execEdge, timeInOrder, positionCanCount, htime, hfull]

/-- A pulse within the contract, in the reference numerics. -/
theorem execEdge_exact {ch : Channel} {s : State} (hexact : s.config.numerics = .exact)
    (htime : (s.chan ch).lastInterruptTime ≤ s.nowUs) (hroom : (s.chan ch).position < 2 ^ s.config.posW - 1) :
    execEdge ch s = .next (s.setChan ch { s.chan ch with
      position := (s.chan ch).position + 1
      interruptVelocity := 1000000 / (elapsedUs s.config s.nowUs (s.chan ch).lastInterruptTime : Num)
      lastInterruptTime := s.nowUs }) := by
  rw [execEdge_of_le htime hroom, num_eq_exactNumerics hexact, countPulse_exact, finishChannel_some]

/-- The velocity of a pulse is positive and at most that of the shortest interval (R16). -/
theorem exactVelocity_pos_le (cfg : Config) (now last : Nat) :
    0 < 1000000 / (elapsedUs cfg now last : Num) ∧
      1000000 / (elapsedUs cfg now last : Num) ≤ 1000000 / (cfg.dtMinUs : Num) := by
  have hmin : (0 : Num) < cfg.dtMinUs := Nat.cast_pos.mpr cfg.dtMinUs_pos
  have hle : (cfg.dtMinUs : Num) ≤ elapsedUs cfg now last := Nat.cast_le.mpr (dtMinUs_le_elapsedUs cfg now last)
  exact ⟨div_pos (by norm_num) (hmin.trans_le hle), div_le_div_of_nonneg_left (by norm_num) hmin hle⟩

/-- Settles O9: the write of the pulse, whose velocity `1 / dt` is `1000000 / dt_us`, and the two tests that stop it. -/
theorem edgeCountsThePulse : Obligations.EdgeCountsThePulse := by
  intro s ch
  refine ⟨fun hexact htime hroom => ⟨_, execEdge_exact hexact htime hroom, ?_, ?_⟩,
    fun hbehind _ => execEdge_refused hbehind, fun htime hfull => execEdge_overflow htime hfull.ge⟩
  · rw [one_div_div]
    rfl
  · rw [State.chan_setChan_same]
    exact ⟨rfl, exactVelocity_pos_le s.config s.nowUs (s.chan ch).lastInterruptTime⟩

/-! ### A train of pulses (R134) -/

/-- The writes of pulses at the times `ts`, one after the other; none where the numerics is not finite. -/
def countPulses (N : Numerics) (cfg : Config) (ts : List Nat) (c : MotorChannel) : Option MotorChannel :=
  ts.foldlM (fun d now => countPulse N cfg now d) c

section
variable {N : Numerics} {cfg : Config} {c d : MotorChannel}

theorem countPulses_cons {now : Nat} (ts : List Nat) (h : countPulse N cfg now c = some d) :
    countPulses N cfg (now :: ts) c = countPulses N cfg ts d := by
  rw [countPulses, List.foldlM_cons, h]
  rfl

/-- The last pulse of a train counts on what the others leave. -/
theorem countPulses_concat_some {us : List Nat} {b : Nat} (h : countPulses N cfg (us ++ [b]) c = some d) :
    ∃ e, countPulses N cfg us c = some e ∧ countPulse N cfg b e = some d := by
  rw [countPulses, List.foldlM_append, Option.bind_eq_bind, Option.bind_eq_some_iff] at h
  simp only [List.foldlM_cons, List.foldlM_nil, bind_pure] at h
  exact h

/-- A train leaves the time of its last pulse; an empty one the stored time. -/
theorem countPulses_lastInterruptTime {us : List Nat} (h : countPulses N cfg us c = some d) :
    d.lastInterruptTime = us.getLast?.getD c.lastInterruptTime := by
  rcases List.eq_nil_or_concat us with rfl | ⟨vs, b, rfl⟩
  · cases h
    rfl
  · rw [List.concat_eq_append] at h ⊢
    obtain ⟨e, -, hd⟩ := countPulses_concat_some h
    rw [countPulse_lastInterruptTime hd, List.getLast?_concat, Option.getD_some]

/-- The velocity a train leaves is that of its last interval. -/
theorem countPulses_interruptVelocity {us : List Nat} {b : Nat}
    (h : countPulses exactNumerics cfg (us ++ [b]) c = some d) :
    d.interruptVelocity = 1000000 / (elapsedUs cfg b (us.getLast?.getD c.lastInterruptTime) : Num) := by
  obtain ⟨e, he, hd⟩ := countPulses_concat_some h
  rw [countPulse_exact] at hd
  cases hd
  rw [← countPulses_lastInterruptTime he]

end

/-- What a step of a train of pulses writes. -/
theorem PulsesAhead.step_countPulse {ch : Channel} {total : Nat} {s t : State} {r : Request} {rest : List Request}
    (hs : PulsesAhead ch total s) (hreq : s.requests = r :: rest) (hst : Machine.step s = .next t) :
    t.config = s.config ∧ countPulse s.config.num s.config r.now (s.chan ch) = some (t.chan ch) := by
  have hmem : r ∈ s.requests := hreq ▸ List.mem_cons_self
  obtain ⟨hle, hfits⟩ := hs.times.inRange r hmem
  have hdec : decode r.word = .ok (.edge ch) := (hs.pulses r hmem) ▸ decode_encode_edge ch
  rw [step_of_conforms hreq hfits hle hdec] at hst
  have hrec := afterRequest_of_exec rfl hst
  rw [State.chan_mk] at hrec
  exact ⟨(exec_config_nowUs hst).1, hrec⟩

/-- The rest of a train of pulses brings the channel to the record `d`, over the configuration `cfg`. -/
structure PulsesLeave (ch : Channel) (total : Nat) (cfg : Config) (d : Option MotorChannel) (s : State) : Prop where
  ahead : PulsesAhead ch total s
  config : s.config = cfg
  leaves : countPulses cfg.num cfg (s.requests.map Request.now) (s.chan ch) = d

theorem PulsesLeave.step {ch : Channel} {total : Nat} {cfg : Config} {d : Option MotorChannel} {s : State}
    {r : Request} {rest : List Request} (hs : PulsesLeave ch total cfg d s) (hreq : s.requests = r :: rest) :
    ∃ t, step s = .next t ∧ t.requests = rest ∧ PulsesLeave ch total cfg d t := by
  obtain ⟨hahead, rfl, hleaves⟩ := hs
  obtain ⟨t, hst, htreq, ht⟩ := hahead.step hreq
  obtain ⟨hcfg, hpulse⟩ := hahead.step_countPulse hreq hst
  rw [hreq, List.map_cons, countPulses_cons _ hpulse, ← htreq] at hleaves
  exact ⟨t, hst, htreq, ht, hcfg, hleaves⟩

/-- A train of pulses within the host contract runs to its end and leaves the record of its writes in order. -/
theorem run_countPulses {ch : Channel} {total : Nat} {s : State} (hs : PulsesAhead ch total s) :
    ∃ t, Host.Core.run Sys2Proof.core s.requests.length s = .next t ∧ (t.chan ch).position = total ∧
      countPulses s.config.num s.config (s.requests.map Request.now) (s.chan ch) = some (t.chan ch) := by
  obtain ⟨t, hrun, hnone, ht⟩ := run_requests (fun _ _ _ hs hreq => PulsesLeave.step hs hreq) ⟨hs, rfl, rfl⟩
  have hcount := ht.ahead.count
  have hleaves := ht.leaves
  rw [hnone] at hcount hleaves
  exact ⟨t, hrun, hcount, hleaves.symm⟩

/-- A trace of pulses of one channel, too short to fill `position`, whose times keep the host contract (R80). -/
theorem pulsesAhead_of_times {ch : Channel} {s : State} {ts : List Nat} (hN : NeverNonFinite s.config.num)
    (hreq : s.requests = ts.map fun t => ⟨t, encode (.edge ch)⟩)
    (hrange : ∀ t ∈ ts, s.nowUs ≤ t ∧ t < 2 ^ s.config.timeW) (hsorted : ts.Pairwise (· ≤ ·))
    (hlast : (s.chan ch).lastInterruptTime ≤ s.nowUs)
    (hroom : (s.chan ch).position + ts.length < 2 ^ s.config.posW) :
    PulsesAhead ch ((s.chan ch).position + ts.length) s where
  finite := hN
  times := by
    refine ⟨?_, fun r hr => ?_⟩
    · rw [hreq]
      exact List.pairwise_map.mpr hsorted
    · rw [hreq] at hr
      obtain ⟨t, ht, rfl⟩ := List.mem_map.mp hr
      exact hrange t ht
  pulses := fun r hr => by
    rw [hreq] at hr
    obtain ⟨t, -, rfl⟩ := List.mem_map.mp hr
    rfl
  lastPulse := hlast
  count := by rw [hreq, List.length_map]
  fits := hroom

/-- Settles O12: the run leaves the record of the pulses' writes in order, and its velocity is the last pulse's. -/
theorem pulsesAccumulate : Obligations.PulsesAccumulate := by
  intro s ch ts hN hreq hrange hsorted hlast hroom
  obtain ⟨t, hrun, hcount, hleaves⟩ := run_countPulses (pulsesAhead_of_times hN hreq hrange hsorted hlast hroom)
  have htimes : s.requests.map Request.now = ts := by
    rw [hreq, List.map_map]
    exact List.map_id ts
  have hlen : s.requests.length = ts.length := by rw [hreq, List.length_map]
  rw [hlen] at hrun
  refine ⟨t, hrun, hcount, fun hexact us b hts => ?_⟩
  rw [num_eq_exactNumerics hexact, htimes, hts] at hleaves
  exact countPulses_interruptVelocity hleaves

end Sys2Proof.Machine

/-! PROOF. The statements of 41_velocity_estimator.md: with a constant raw input the low-pass filter approaches its gain
times the input (R160), and `LPF_UNITY` makes that the input itself (R9). -/

namespace Sys2Proof.Machine

/-! ### One filter step in the reference numerics (R156) -/

/-- The state a filter step leaves in the reference numerics, in which it always completes (`lpfStep_exact`). -/
def filterNext (cfg : Config) (raw : ℚ) (f : FilterState) : FilterState :=
  ⟨cfg.lpfA * f.filteredVelocity + cfg.lpfB * raw + cfg.lpfB * f.prevRawVelocity, raw⟩

@[simp] theorem filterNext_prevRawVelocity (cfg : Config) (raw : ℚ) (f : FilterState) :
    (filterNext cfg raw f).prevRawVelocity = raw := rfl

theorem lpfStep_eq_filterNext (cfg : Config) (f : FilterState) (raw : ℚ) :
    lpfStep exactNumerics cfg f raw = some (filterNext cfg raw f) := lpfStep_exact cfg f raw

/-! ### The limit (R9, R160) -/

/-- The filter's gain times a constant raw input (R160). -/
def filterLimit (cfg : Config) (r : ℚ) : ℚ := 2 * cfg.lpfB * r / (1 - cfg.lpfA)

/-- The limit is the fixed point of the filter's recurrence once both raw inputs are `r`. -/
theorem filterLimit_fixed {cfg : Config} (hA : cfg.lpfA < 1) (r : ℚ) :
    cfg.lpfA * filterLimit cfg r + cfg.lpfB * r + cfg.lpfB * r = filterLimit cfg r := by
  have hgain : filterLimit cfg r * (1 - cfg.lpfA) = 2 * cfg.lpfB * r := div_mul_cancel₀ _ (sub_pos.mpr hA).ne'
  linarith

theorem filterNext_filterLimit {cfg : Config} (hA : cfg.lpfA < 1) (r : ℚ) :
    filterNext cfg r ⟨filterLimit cfg r, r⟩ = ⟨filterLimit cfg r, r⟩ :=
  congrArg (FilterState.mk · r) (filterLimit_fixed hA r)

theorem filterLimit_of_lpfUnity {cfg : Config} (hA : cfg.lpfA < 1) (hunity : cfg.LpfUnity) (r : ℚ) :
    filterLimit cfg r = r := by
  have hB : 2 * cfg.lpfB = 1 - cfg.lpfA := eq_sub_of_add_eq' hunity
  rw [filterLimit, hB, mul_div_cancel_left₀ r (sub_pos.mpr hA).ne']

/-! ### The distance to the limit shrinks by `LPF_A` at each step (R160) -/

theorem filterNext_sub_filterLimit {cfg : Config} (hA : cfg.lpfA < 1) {r : ℚ} {f : FilterState}
    (hraw : f.prevRawVelocity = r) :
    (filterNext cfg r f).filteredVelocity - filterLimit cfg r =
      cfg.lpfA * (f.filteredVelocity - filterLimit cfg r) := by
  have hfixed := filterLimit_fixed hA r
  simp only [filterNext, hraw]
  linarith

theorem iterate_filterNext_sub_filterLimit {cfg : Config} (hA : cfg.lpfA < 1) {r : ℚ} (n : ℕ) {f : FilterState}
    (hraw : f.prevRawVelocity = r) :
    ((filterNext cfg r)^[n] f).filteredVelocity - filterLimit cfg r =
      cfg.lpfA ^ n * (f.filteredVelocity - filterLimit cfg r) := by
  induction n generalizing f with
  | zero => simp
  | succ n ih =>
    rw [Function.iterate_succ_apply, ih (filterNext_prevRawVelocity cfg r f), filterNext_sub_filterLimit hA hraw,
      pow_succ, mul_assoc]

/-- The first step may still read an older raw input; from the second on the distance shrinks geometrically. -/
theorem tendsto_iterate_filterNext {cfg : Config} (hnonneg : 0 ≤ cfg.lpfA) (hA : cfg.lpfA < 1) (r : ℚ)
    (f : FilterState) :
    Filter.Tendsto (fun n : ℕ => ((filterNext cfg r)^[n] f).filteredVelocity) Filter.atTop
      (nhds (filterLimit cfg r)) := by
  rw [← Filter.tendsto_add_atTop_iff_nat 1, ← tendsto_sub_nhds_zero_iff]
  have hdistance : ∀ n : ℕ, ((filterNext cfg r)^[n + 1] f).filteredVelocity - filterLimit cfg r =
      cfg.lpfA ^ n * ((filterNext cfg r f).filteredVelocity - filterLimit cfg r) := fun n =>
    iterate_filterNext_sub_filterLimit hA n (filterNext_prevRawVelocity cfg r f)
  simp only [hdistance]
  simpa using (tendsto_pow_atTop_nhds_zero_of_lt_one hnonneg hA).mul_const
    ((filterNext cfg r f).filteredVelocity - filterLimit cfg r)

/-- Settles O26: the limit is the recurrence's fixed point, and under `LPF_UNITY` the fixed point is the input. -/
theorem filterConvergesToItsGain : Obligations.FilterConvergesToItsGain := by
  intro cfg f r hnonneg hA
  refine ⟨filterNext cfg r, fun g => lpfStep_eq_filterNext cfg g r, tendsto_iterate_filterNext hnonneg hA r f,
    fun hunity => ?_⟩
  have hlimit : filterLimit cfg r = r := filterLimit_of_lpfUnity hA hunity r
  have hrest := filterNext_filterLimit hA r
  rw [hlimit] at hrest
  exact ⟨hlimit, hrest⟩

end Sys2Proof.Machine

/-! PROOF. The statement of 42_ramp.md: a drive tick moves `smoothed_target` by a clamped distance (R170), so within its
bound, never past the target, and nearer by a full step (R171). -/

namespace Sys2Proof.Machine

open Sys2Proof.Spec

/-! ### A distance clamped to one step (R170) -/

theorem abs_clamp_le {step : ℚ} (hstep : 0 ≤ step) (d : ℚ) : |max (-step) (min step d)| ≤ step :=
  abs_le.mpr ⟨le_max_left _ _, max_le (neg_le_self hstep) (min_le_left _ _)⟩

/-- One case per branch of the ramp: a full step up, a full step down, or the whole distance. -/
theorem abs_sub_clamp {step : ℚ} (hstep : 0 ≤ step) (d : ℚ) :
    |d - max (-step) (min step d)| = max (|d| - step) 0 := by
  rcases lt_or_ge step d with hup | hup
  · have hmove : max (-step) (min step d) = step := by
      rw [min_eq_left hup.le, max_eq_right (neg_le_self hstep)]
    rw [hmove, abs_of_pos (sub_pos.mpr hup), abs_of_pos (hstep.trans_lt hup), max_eq_left (sub_pos.mpr hup).le]
  · rcases lt_or_ge d (-step) with hdown | hdown
    · have hmove : max (-step) (min step d) = -step := by
        rw [min_eq_right hup, max_eq_left hdown.le]
      rw [hmove, abs_of_neg (by linarith), abs_of_neg (by linarith), max_eq_left (by linarith)]
      ring
    · have hmove : max (-step) (min step d) = d := by
        rw [min_eq_right hup, max_eq_right hdown]
      rw [hmove, sub_self, abs_zero, max_eq_right (sub_nonpos.mpr (abs_le.mpr ⟨hdown, hup⟩))]

/-! ### The ramp of a drive request in the reference numerics (R170, R216, R220) -/

theorem driveTick_smoothedTarget (cfg : Config) (dir : BitVec 2) (rpm now : Nat) (c : MotorChannel) :
    ∃ d, driveTick exactNumerics cfg dir rpm now c = some d ∧
      d.smoothedTarget = c.smoothedTarget + max (-(cfg.rampRate * seconds cfg now c.lastLoopTime))
        (min (cfg.rampRate * seconds cfg now c.lastLoopTime) ((rpm : ℚ) - c.smoothedTarget)) := by
  obtain ⟨dt, _, _, _, eff, _, rfl, -, -, -, heff, -, hd⟩ := driveTick_exact cfg dir rpm now c
  exact ⟨_, hd, heff⟩

/-- `FWD` and `REV` with the clock in order write the record of a drive tick. -/
theorem exec_drive_exact {i : Instr} {ch : Channel} {rpm : Nat} {s : State}
    (hi : i = .fwd ch rpm ∨ i = .rev ch rpm) (hexact : s.config.numerics = .exact)
    (hle : (s.chan ch).lastLoopTime ≤ s.nowUs) :
    ∃ dir, exec i s = finishChannel ch s (driveTick exactNumerics s.config dir rpm s.nowUs (s.chan ch)) := by
  have request : ∀ dir, driveRequest dir ch rpm s =
      finishChannel ch s (driveTick exactNumerics s.config dir rpm s.nowUs (s.chan ch)) := fun dir => by
    rw [driveRequest_of_le rpm hle, num_eq_exactNumerics hexact]
  rcases hi with rfl | rfl
  · exact ⟨_, request dirForward⟩
  · exact ⟨_, request dirReverse⟩

/-- Settles O23: the tick adds the distance to the target clamped to one step, and the clamp is at most a step, ends
between the old value and the target, and leaves of the distance what exceeds a step. -/
theorem rampIsBoundedAndNeverOvershoots : Obligations.RampIsBoundedAndNeverOvershoots := by
  intro s ch rpm i hi hexact hle
  obtain ⟨dir, hexec⟩ := exec_drive_exact hi hexact hle
  obtain ⟨d, hd, htarget⟩ := driveTick_smoothedTarget s.config dir rpm s.nowUs (s.chan ch)
  rw [hd, finishChannel_some] at hexec
  have hstep : 0 ≤ s.config.rampRate * seconds s.config s.nowUs (s.chan ch).lastLoopTime :=
    mul_nonneg s.config.rampRate_nonneg (seconds_pos s.config s.nowUs (s.chan ch).lastLoopTime).le
  obtain ⟨hlow, hhigh⟩ := ramp_mem hstep
    ⟨min_le_left (s.chan ch).smoothedTarget (rpm : ℚ), le_max_left (s.chan ch).smoothedTarget (rpm : ℚ)⟩
    ⟨min_le_right _ _, le_max_right _ _⟩
  refine ⟨_, hexec, ?_⟩
  rw [State.chan_setChan_same, htarget]
  refine ⟨?_, hlow, hhigh, ?_⟩
  · rw [add_sub_cancel_left]
    exact abs_clamp_le hstep _
  · rw [← sub_sub]
    exact abs_sub_clamp hstep _

end Sys2Proof.Machine

/-! PROOF. The statement of 43_pid.md: anti-windup (R181, R183). The PID's integral stands still at a large error or at
none, and is moved towards the bound of the error's sign, and no further, by a smaller one. -/

namespace Sys2Proof.Machine

/-! ### The stored integral in the reference numerics, a rule per kind of error (R180) -/

section
variable {cfg : Config} {ie e dt : Num}

/-- The clamp of step 3 changes nothing where step 2 did not move an integral within its bound. -/
theorem nextIntegral_of_not_moved (hbound : |ie| ≤ cfg.integralClamp)
    (hstill : |e| < cfg.loopDeadbandRpm → e * dt = 0) : nextIntegral exactNumerics cfg ie e dt = some ie := by
  have hsum : (if |e| < cfg.loopDeadbandRpm then ie + e * dt else ie) = ie := by
    split
    · next hsmall => rw [hstill hsmall, add_zero]
    · rfl
  obtain ⟨hlow, hhigh⟩ := abs_le.mp hbound
  rw [nextIntegral_exact, hsum, min_eq_right hhigh, max_eq_right hlow]

theorem nextIntegral_of_deadband_le (hbound : |ie| ≤ cfg.integralClamp) (hlarge : cfg.loopDeadbandRpm ≤ |e|) :
    nextIntegral exactNumerics cfg ie e dt = some ie :=
  nextIntegral_of_not_moved hbound fun hsmall => absurd hsmall hlarge.not_gt

theorem nextIntegral_of_nonneg (hbound : |ie| ≤ cfg.integralClamp) (hsmall : |e| < cfg.loopDeadbandRpm)
    (hup : 0 ≤ e * dt) :
    nextIntegral exactNumerics cfg ie e dt = some (min cfg.integralClamp (ie + e * dt)) := by
  have hlow : -cfg.integralClamp ≤ ie + e * dt := le_add_of_le_of_nonneg (abs_le.mp hbound).1 hup
  rw [nextIntegral_exact, if_pos hsmall, max_eq_right (le_min (neg_le_self cfg.integralClamp_nonneg) hlow)]

theorem nextIntegral_of_nonpos (hbound : |ie| ≤ cfg.integralClamp) (hsmall : |e| < cfg.loopDeadbandRpm)
    (hdown : e * dt ≤ 0) :
    nextIntegral exactNumerics cfg ie e dt = some (max (-cfg.integralClamp) (ie + e * dt)) := by
  have hhigh : ie + e * dt ≤ cfg.integralClamp := add_le_of_le_of_nonpos (abs_le.mp hbound).2 hdown
  rw [nextIntegral_exact, if_pos hsmall, min_eq_right hhigh]

end

/-! ### A `PID` call, and any number of them at a large error (R180, R183) -/

theorem pid_integralError (cfg : Config) (c : MotorChannel) (eff filt dt : Num) :
    ∃ d u, pid exactNumerics cfg c eff filt dt = some (d, u) ∧
      nextIntegral exactNumerics cfg c.integralError (eff - filt) dt = some d.integralError := by
  obtain ⟨ie, hnext, hpid⟩ := pid_exact cfg c eff filt dt
  exact ⟨_, _, hpid, hnext⟩

/-- By induction on the calls: each leaves the next a channel with the same integral. -/
theorem pidCalls_freeze_integral (cfg : Config) (calls : List (ℚ × ℚ × ℚ)) (c : MotorChannel)
    (hbound : |c.integralError| ≤ cfg.integralClamp)
    (hlarge : ∀ p ∈ calls, cfg.loopDeadbandRpm ≤ |p.1 - p.2.1|) :
    ∃ d, calls.foldlM (fun x p => (pid exactNumerics cfg x p.1 p.2.1 p.2.2).map Prod.fst) c = some d ∧
      d.integralError = c.integralError := by
  induction calls generalizing c with
  | nil => exact ⟨c, rfl, rfl⟩
  | cons call calls ih =>
    obtain ⟨hcall, hcalls⟩ := List.forall_mem_cons.mp hlarge
    obtain ⟨mid, u, hpid, hnext⟩ := pid_integralError cfg c call.1 call.2.1 call.2.2
    have hmid : mid.integralError = c.integralError :=
      Option.some.inj (hnext.symm.trans (nextIntegral_of_deadband_le hbound hcall))
    obtain ⟨d, hrun, hd⟩ := ih mid (hmid ▸ hbound) hcalls
    refine ⟨d, ?_, hd.trans hmid⟩
    rw [List.foldlM_cons, hpid]
    exact hrun

/-- Settles O24: the stored integral is read off the rule for the error's kind, and the move is strict since both the
sum and, away from it, the bound lie beyond the integral. -/
theorem antiWindupFreezesAndSaturates : Obligations.AntiWindupFreezesAndSaturates := by
  intro cfg c hbound
  refine ⟨fun calls => pidCalls_freeze_integral cfg calls c hbound, fun eff filt dt hdt => ?_⟩
  obtain ⟨d, u, hpid, hnext⟩ := pid_integralError cfg c eff filt dt
  obtain ⟨hlow, hhigh⟩ := abs_le.mp hbound
  refine ⟨d, u, hpid, nextIntegral_mem hnext, fun heq => ?_, fun hpos hsmall => ?_, fun hneg hsmall => ?_⟩
  · have hstill : (eff - filt) * dt = 0 := by rw [heq, sub_self, zero_mul]
    exact Option.some.inj (hnext.symm.trans (nextIntegral_of_not_moved hbound fun _ => hstill))
  · have hup : 0 < (eff - filt) * dt := mul_pos hpos hdt
    have hd : d.integralError = min cfg.integralClamp (c.integralError + (eff - filt) * dt) :=
      Option.some.inj (hnext.symm.trans
        (nextIntegral_of_nonneg hbound ((abs_of_pos hpos).trans_lt hsmall) hup.le))
    refine ⟨hd, fun hne => ?_⟩
    rw [hd]
    exact lt_min (hhigh.lt_of_ne hne) (lt_add_of_pos_right _ hup)
  · have hdown : (eff - filt) * dt < 0 := mul_neg_of_neg_of_pos hneg hdt
    have hd : d.integralError = max (-cfg.integralClamp) (c.integralError + (eff - filt) * dt) :=
      Option.some.inj (hnext.symm.trans
        (nextIntegral_of_nonpos hbound ((abs_of_neg hneg).trans_lt (neg_lt.mp hsmall)) hdown.le))
    refine ⟨hd, fun hne => ?_⟩
    rw [hd]
    exact max_lt (hlow.lt_of_ne' hne) (add_lt_of_neg_right _ hdown)

end Sys2Proof.Machine

/-! PROOF. The statement of 44_output_stage.md: the duty as a rounded, clamped magnitude (R201, R202), in the
reference numerics. -/

namespace Sys2Proof.Machine

/-! ### The rounding (R14): `round_hu` of a magnitude against a natural number -/

theorem roundHalfUp_eq_iff {x : ℚ} (hx : 0 ≤ x) (n : ℕ) :
    ⌊x + 1 / 2⌋.toNat = n ↔ (n : ℚ) - 1 / 2 ≤ x ∧ x < n + 1 / 2 := by
  rw [Int.floor_toNat, Nat.floor_eq_iff (by positivity), sub_le_iff_le_add]
  exact and_congr_right fun _ => ⟨fun h => by linarith, fun h => by linarith⟩

theorem le_roundHalfUp_iff {x : ℚ} (hx : 0 ≤ x) (n : ℕ) : n ≤ ⌊x + 1 / 2⌋.toNat ↔ (n : ℚ) - 1 / 2 ≤ x := by
  rw [Int.floor_toNat, Nat.le_floor_iff (by positivity), sub_le_iff_le_add]

/-! ### `OUT` (R201, R202) -/

theorem out_of_dutyOf {N : Numerics} {cfg : Config} {u : Num} {pwr : Nat} (h : dutyOf N cfg u = some pwr)
    (c : MotorChannel) : out N cfg c u = some { c with duty := BitVec.ofNat 8 pwr } := by
  simp only [out, h, Option.bind_eq_bind, Option.bind_some, Option.pure_def]

/-- Only the magnitude of the control effort reaches the output, whatever the numerics (R202). -/
theorem out_neg (N : Numerics) (cfg : Config) (c : MotorChannel) (u : Num) : out N cfg c (-u) = out N cfg c u := by
  simp only [out, dutyOf, abs_neg]

/-- Settles O25: the duty is the smaller of the rounded magnitude and the clamp; each interval of `|u|` says which of
the two that is. -/
theorem dutyIsTheRoundedMagnitude : Obligations.DutyIsTheRoundedMagnitude := by
  intro cfg c u
  have hout := out_of_dutyOf (dutyOf_exact cfg u) c
  refine ⟨_, hout, (out_neg _ cfg c u).trans hout, rfl, fun n hn hlow hhigh => ?_, fun hclamp => ?_⟩
  · have hround : ⌊|u| + 1 / 2⌋.toNat = n := (roundHalfUp_eq_iff (abs_nonneg u) n).mpr ⟨hlow, hhigh⟩
    rw [duty_toNat (min_le_right _ _), hround, min_eq_left hn.le]
  · have hround : cfg.outputClamp ≤ ⌊|u| + 1 / 2⌋.toNat := (le_roundHalfUp_iff (abs_nonneg u) _).mpr hclamp
    rw [duty_toNat (min_le_right _ _), min_eq_right hround]

end Sys2Proof.Machine

/-! PROOF. The statements of 45_supervisor.md: what `STOP` clears and keeps (R217, R227), and the drive tick of `FWD`
and `REV`: its closed form, what a discontinuity discards, and how reverse mirrors forward (R216, R218, R220). -/

namespace Sys2Proof.Machine

open Sys2Proof.Spec

/-! ### `STOP` (R217) -/

theorem stopChannel_eq_stopped (c : MotorChannel) : stopChannel c = stopped c := rfl

theorem stopped_stopped (c : MotorChannel) : stopped (stopped c) = stopped c := rfl

/-- Settles O16: both codes write `stopChannel`. -/
theorem stopClearsOutputsAndBookkeeping : Obligations.StopClearsOutputsAndBookkeeping := by
  intro s ch rpm
  rw [← stopChannel_eq_stopped]
  exact ⟨rfl, rfl⟩

theorem setChan_stopped_of_stopped (s : State) (ch : Channel) (c : MotorChannel) :
    (s.setChan ch (stopped c)).setChan ch (stopped ((s.setChan ch (stopped c)).chan ch)) =
      s.setChan ch (stopped c) := by
  rw [State.chan_setChan_same, stopped_stopped, State.setChan_setChan_same]

/-- Settles O17: the second `STOP`, by either code, writes the record the first one left. -/
theorem stopIsIdempotent : Obligations.StopIsIdempotent := by
  intro s ch rpm rpm'
  obtain ⟨hfirst, -⟩ := stopClearsOutputsAndBookkeeping s ch rpm
  obtain ⟨hstop, hcode3⟩ := stopClearsOutputsAndBookkeeping (s.setChan ch (stopped (s.chan ch))) ch rpm'
  rw [setChan_stopped_of_stopped] at hstop hcode3
  exact ⟨_, hfirst, hstop, hcode3⟩

/-! ### The drive tick in closed form, in the reference numerics (R216, R219, R220) -/

/-- The tick's intermediate values are the closed formula's, once the test for a discontinuity is read as the
statement's. -/
theorem driveTick_eq_driveResult (cfg : Config) (now : Nat) (dir : BitVec 2) (rpm : Nat) (c : MotorChannel) :
    driveTick exactNumerics cfg dir rpm now c =
      some (driveResult cfg now dir (dirset c dir).en1 (dirset c dir).en2 rpm c) := by
  obtain ⟨_, _, _, _, _, _, rfl, rfl, rfl, rfl, rfl, rfl, htick⟩ := driveTick_exact cfg dir rpm now c
  rw [htick]
  simp only [ite_discontinuity]
  rfl

section
variable {dir : BitVec 2} {ch : Channel} {s : State} (rpm : Nat)

theorem driveRequest_exact (hexact : s.config.numerics = .exact) (hle : (s.chan ch).lastLoopTime ≤ s.nowUs) :
    driveRequest dir ch rpm s = .next (s.setChan ch (driveResult s.config s.nowUs dir
      (dirset (s.chan ch) dir).en1 (dirset (s.chan ch) dir).en2 rpm (s.chan ch))) := by
  rw [driveRequest_of_le rpm hle, num_eq_exactNumerics hexact, driveTick_eq_driveResult, finishChannel_some]

theorem driveRequest_refused (hlt : s.nowUs < (s.chan ch).lastLoopTime) :
    driveRequest dir ch rpm s = .refused (.loopBeforeLastLoop ch) :=
  if_neg fun hin => hlt.not_ge ((timeInOrder_iff _ _).mp hin)

end

/-- Settles O18: `DIRSET` gives the levels (1, 0) for forward. -/
theorem fwdPerformsTheDriveTick : Obligations.FwdPerformsTheDriveTick := fun _ _ rpm _ =>
  ⟨driveRequest_exact (dir := dirForward) rpm, driveRequest_refused rpm⟩

/-- Settles O19: `DIRSET` gives the levels (0, 1) for reverse. -/
theorem revPerformsTheDriveTick : Obligations.RevPerformsTheDriveTick := fun _ _ rpm _ =>
  ⟨driveRequest_exact (dir := dirReverse) rpm, driveRequest_refused rpm⟩

/-! ### A tick of a channel that differs in what the tick overwrites -/

/-- A request that computes its record overwrites whatever record its channel held. -/
theorem finishChannel_setChan (ch : Channel) (s : State) (c : MotorChannel) (r : Option MotorChannel) :
    finishChannel ch (s.setChan ch c) r = finishChannel ch s r := by
  cases r with
  | none => rfl
  | some d => rw [finishChannel_some, finishChannel_some, State.setChan_setChan_same]

/-- A drive request on a device whose channel record was replaced by `c`: the tick of `c`. -/
theorem driveRequest_setChan {dir : BitVec 2} {ch : Channel} {s : State} {c : MotorChannel} (rpm : Nat)
    (hle : c.lastLoopTime ≤ s.nowUs) :
    driveRequest dir ch rpm (s.setChan ch c) =
      finishChannel ch s (driveTick s.config.num s.config dir rpm s.nowUs c) := by
  have hle' : ((s.setChan ch c).chan ch).lastLoopTime ≤ (s.setChan ch c).nowUs := by
    rwa [State.chan_setChan_same, State.setChan_nowUs]
  rw [driveRequest_of_le rpm hle', finishChannel_setChan, State.chan_setChan_same, State.setChan_config,
    State.setChan_nowUs]

/-! ### A discontinuity discards the PID state (R216, R218, R220) -/

/-- The channel with another PID state. -/
def withPidState (x y : Num) (c : MotorChannel) : MotorChannel := { c with integralError := x, prevError := y }

theorem dirset_withPidState (x y : Num) (c : MotorChannel) (dir : BitVec 2) :
    dirset (withPidState x y c) dir = withPidState x y (dirset c dir) := by
  rw [dirset, dirset]
  split_ifs <;> rfl

section
variable {cfg : Config} {dir : BitVec 2} {rpm : Nat} {c : MotorChannel} (x y : Num)

/-- `PIDRST` runs before the loop, and after it the two channels are one. -/
theorem beforeLoop_withPidState (h : Discontinuous cfg dir rpm c) :
    beforeLoop cfg dir rpm (withPidState x y c) = beforeLoop cfg dir rpm c := by
  have hother : Discontinuous cfg dir rpm (withPidState x y c) := h
  rw [beforeLoop_eq, beforeLoop_eq, dirset_withPidState]
  simp only [ite_discontinuity, if_pos h, if_pos hother]
  rfl

theorem driveRequest_withPidState {ch : Channel} {s : State} (hle : (s.chan ch).lastLoopTime ≤ s.nowUs)
    (h : Discontinuous s.config dir rpm (s.chan ch)) :
    driveRequest dir ch rpm (s.setChan ch (withPidState x y (s.chan ch))) = driveRequest dir ch rpm s := by
  have hle' : (withPidState x y (s.chan ch)).lastLoopTime ≤ s.nowUs := hle
  rw [driveRequest_setChan rpm hle', driveRequest_of_le rpm hle, driveTick, driveTick, beforeLoop_withPidState x y h]

end

/-- Settles O21: the request completes, and is the same request on either PID state. -/
theorem discontinuityDiscardsThePidState : Obligations.DiscontinuityDiscardsThePidState := by
  intro s ch rpm x y hN hle
  have request : ∀ dir, Discontinuous s.config dir rpm (s.chan ch) → ∃ t, driveRequest dir ch rpm s = .next t ∧
      driveRequest dir ch rpm (s.setChan ch (withPidState x y (s.chan ch))) = .next t := fun dir hdisc => by
    obtain ⟨t, ht⟩ := driveRequest_completes (dir := dir) (rpm := rpm) hN hle
    exact ⟨t, ht, (driveRequest_withPidState x y hle hdisc).trans ht⟩
  exact ⟨request dirForward, request dirReverse⟩

/-! ### Reverse mirrors forward (R220) -/

/-- The channel with another recorded direction and other direction levels. -/
def withDirection (d : BitVec 2) (e1 e2 : BitVec 1) (c : MotorChannel) : MotorChannel :=
  { c with prevDirection := d, en1 := e1, en2 := e2 }

/-- The loop reads neither the recorded direction nor the levels, and writes none of them. -/
theorem loop_withDirection (N : Numerics) (cfg : Config) (target now : Nat) (d : BitVec 2) (e1 e2 : BitVec 1)
    (c : MotorChannel) :
    loop N cfg target now (withDirection d e1 e2 c) = (loop N cfg target now c).map (withDirection d e1 e2) := by
  have hest : estimates N cfg (withDirection d e1 e2 c) (readSnapshot c) now =
      estimates N cfg c (readSnapshot c) now := rfl
  have hsnap : readSnapshot (withDirection d e1 e2 c) = readSnapshot c := rfl
  rw [loop, loop, hsnap, loopAfterSnap_eq, loopAfterSnap_eq, hest]
  exact (map_bind_eq fun est => map_bind_eq fun f1 => map_bind_eq fun f2 => map_bind_eq fun eff =>
    map_bind_eq fun e => map_bind_eq fun ie => map_bind_eq fun change => map_bind_eq fun deriv =>
    map_bind_eq fun u => map_bind_eq fun pwr => by
      rw [Option.map_some]
      rfl).symm

section
variable {cfg : Config} {d : BitVec 2} {c : MotorChannel} (rpm : Nat) (hd : d = 2 ↔ c.prevDirection = 1)
include hd

/-- On the exchanged direction reverse is a discontinuity exactly where forward was one. -/
theorem discontinuous_exchanged :
    Discontinuous cfg 2 rpm { c with prevDirection := d } ↔ Discontinuous cfg 1 rpm c :=
  or_congr_left (not_congr hd)

theorem beforeLoop_exchanged :
    beforeLoop cfg dirReverse rpm { c with prevDirection := d } =
      withDirection d 0 1 (beforeLoop cfg dirForward rpm c) := by
  have hdisc : ∀ v : Num, (if Discontinuous cfg dirReverse rpm { c with prevDirection := d } then 0 else v) =
      if Discontinuous cfg dirForward rpm c then 0 else v := fun v =>
    if_congr (discontinuous_exchanged rpm hd) rfl rfl
  rw [beforeLoop_eq, beforeLoop_eq]
  simp only [ite_discontinuity, hdisc]
  rfl

theorem driveTick_exchanged (N : Numerics) (now : Nat) :
    driveTick N cfg dirReverse rpm now { c with prevDirection := d } =
      (driveTick N cfg dirForward rpm now c).map (withDirection 2 0 1) := by
  rw [driveTick, driveTick, beforeLoop_exchanged rpm hd, loop_withDirection, Option.map_map, Option.map_map]
  rfl

end

/-- Settles O22: the two ticks run the same loop, and each then records its own code over its own levels. -/
theorem reverseMirrorsForward : Obligations.ReverseMirrorsForward := by
  intro s ch rpm d hN hle hd
  obtain ⟨t, ht⟩ := driveRequest_completes (dir := dirForward) (rpm := rpm) hN hle
  obtain ⟨-, c, htick, rfl⟩ := driveRequest_next ht
  have hle' : ({ s.chan ch with prevDirection := d } : MotorChannel).lastLoopTime ≤ s.nowUs := hle
  have hrev : driveRequest dirReverse ch rpm (s.setChan ch { s.chan ch with prevDirection := d }) =
      .next (s.setChan ch (withDirection 2 0 1 c)) := by
    rw [driveRequest_setChan rpm hle', driveTick_exchanged rpm hd, htick, Option.map_some, finishChannel_some]
  refine ⟨_, ht, ?_⟩
  rw [State.setChan_setChan_same, State.chan_setChan_same]
  exact hrev

/-! ### A restart after `STOP` (R227) -/

/-- A configuration whose ramp rises 500 RPM per second: a step of 1/2000 RPM in the shortest elapsed time. -/
def restartConfig : Config :=
  { kp := 1, ki := 10, kd := 1 / 100, rampRate := 500, pulsesPerRev := 250,
    allowed := by norm_num [ConfigFields.Allowed] }

/-- A stopped channel whose ramp still stands at the 400 RPM it was driven to. -/
def rampedChannel : MotorChannel := { MotorChannel.reset with smoothedTarget := 400 }

/-- The device after reset, with that configuration and that channel M1. -/
def rampedDevice : State := { State.reset with config := restartConfig, m1 := rampedChannel }

/-- Only the velocities' invariant reads the ramp. -/
theorem rampedDevice_inv : rampedDevice.Inv where
  now_fits := Nat.two_pow_pos _
  channel
    | .m1 => { reset_channelInv restartConfig 0 with }
    | .m2 => reset_channelInv restartConfig 0
  velocity
    | _, .m1 =>
      { reset_velocityInv restartConfig with
        smoothedTarget_nonneg := by norm_num [rampedDevice, rampedChannel]
        smoothedTarget_le := by norm_num [rampedDevice, rampedChannel] }
    | _, .m2 => reset_velocityInv restartConfig

/-- Settles O42: `STOP` leaves the ramp at the target 400, where the restart keeps it, and `RST` puts it at 0, from
where one step of the ramp does not reach 400. -/
theorem restartAfterStopIsNotAFreshStart : Obligations.RestartAfterStopIsNotAFreshStart := by
  obtain ⟨u, hu, -, hlow, -⟩ := rampIsBoundedAndNeverOvershoots
    (rampedDevice.setChan .m1 (stopped rampedChannel)) .m1 400 _ (.inl rfl) rfl le_rfl
  obtain ⟨w, hw, hstep, -⟩ := rampIsBoundedAndNeverOvershoots
    { rampedDevice with m1 := MotorChannel.reset } .m1 400 _ (.inl rfl) rfl le_rfl
  refine ⟨rampedDevice, _, u, _, w, rampedDevice_inv, rfl, hu, rfl, hw, ?_⟩
  have hkept : 400 ≤ (u.chan .m1).smoothedTarget := (le_min le_rfl (by norm_num)).trans hlow
  have hreset : |(w.chan .m1).smoothedTarget - 0| ≤ 500 * (((max (0 - 0) 1 : ℕ) : ℚ) / 1000000) := hstep
  have hlost : (w.chan .m1).smoothedTarget < 400 := by
    rw [sub_zero] at hreset
    exact (le_abs_self _).trans_lt (hreset.trans_lt (by norm_num))
  exact (hlost.trans_le hkept).ne'

end Sys2Proof.Machine

/-! PROOF. The statements of 70_reset_and_hazards.md: what `RST` zeroes and keeps (R47, R290). -/

namespace Sys2Proof.Machine

/-- Every field of the record after reset is zero (R47). -/
theorem reset_eq_zeroChannel : MotorChannel.reset = Sys2Proof.Spec.zeroChannel := rfl

/-- `RST` writes the record after reset to each channel, whatever the channel held (R290). -/
theorem exec_rst (s : State) :
    exec .rst s = .next ((s.setChan .m1 MotorChannel.reset).setChan .m2 MotorChannel.reset) := by
  change execRst s = _
  rw [execRst, resetChannel_eq, resetChannel_eq]

/-- Settles O32: each channel holds the last record written to it, and no write of a channel reaches the time base or the
configuration. -/
theorem rstZeroesBothChannels : Obligations.RstZeroesBothChannels := by
  intro s
  refine ⟨_, exec_rst s, fun ch => ?_, ?_, ?_⟩
  · rw [← reset_eq_zeroChannel]
    cases ch with
    | m1 => rw [State.chan_m1, State.setChan_m2_m1, State.setChan_m1_m1]
    | m2 => rw [State.chan_setChan_same]
  · rw [State.setChan_nowUs, State.setChan_nowUs]
  · rw [State.setChan_config, State.setChan_config]

end Sys2Proof.Machine

/-! PROOF. The statements that rest on the model's own choices: the idle step (log entry 3), the order of the tests of
`EDGE` (log entry 9), the values of the configuration after reset (log entry 8), and the whole frame of `RST` (log
entries 3 and 6). -/

namespace Sys2Proof.Machine

/-! ### A step with no entry left (R291) -/

theorem acceptNext_idle {s : State} (h : s.requests = []) : acceptNext s = .idle := by
  rw [acceptNext, h]

/-- Settles O8: no entry is accepted, and a step that accepts none answers its own state. -/
theorem stepWaitsForARequest : Obligations.StepWaitsForARequest := by
  intro s hnone
  rw [step, acceptNext_idle hnone]

/-! ### The order of the tests of a pulse (U1, U3) -/

/-- Settles O11: the refusal of `EDGE` does not read `position`. -/
theorem edgeTestsTheClockFirst : Obligations.EdgeTestsTheClockFirst := by
  intro s ch hbehind
  change execEdge ch s = _
  exact execEdge_refused hbehind

/-! ### The configuration after reset (R8, R9, R49) -/

/-- R8's two coefficients: 534/625 + 2 * 91/1250 = 1. -/
theorem defaultLpf_unitGain : Config.defaultLpfA + 2 * Config.defaultLpfB = 1 := by
  norm_num [Config.defaultLpfA, Config.defaultLpfB]

/-- Any configuration with R8's coefficients has unit gain, whatever its other fields. -/
theorem lpfUnity_of_default {cfg : Config} (hA : cfg.lpfA = Config.defaultLpfA) (hB : cfg.lpfB = Config.defaultLpfB) :
    cfg.LpfUnity := by
  rw [Config.LpfUnity, hA, hB, defaultLpf_unitGain]

theorem reset_lpfA : State.reset.config.lpfA = Config.defaultLpfA := rfl

theorem reset_lpfB : State.reset.config.lpfB = Config.defaultLpfB := rfl

theorem reset_numerics : State.reset.config.numerics = .exact := rfl

/-- Settles O27. -/
theorem defaultCoefficientsHaveUnitGain : Obligations.DefaultCoefficientsHaveUnitGain :=
  ⟨defaultLpf_unitGain, reset_lpfA, reset_lpfB, lpfUnity_of_default reset_lpfA reset_lpfB⟩

/-- Settles O28: each of the four operations answers a value, and the numerics after reset is chosen exact. -/
theorem referenceNumericsIsFinite : Obligations.ReferenceNumericsIsFinite :=
  ⟨exactNumerics_isSome, num_eq_exactNumerics reset_numerics⟩

/-! ### The frame of `RST` (R290) -/

/-- Writing both channels replaces the two records and nothing else of the device. -/
theorem setChan_m1_setChan_m2 (s : State) (c d : MotorChannel) :
    (s.setChan .m1 c).setChan .m2 d = { s with m1 := c, m2 := d } := rfl

/-- Settles O33: `RST` is two writes of a channel. -/
theorem rstLeavesThePorts : Obligations.RstLeavesThePorts := by
  intro s
  rw [exec_rst, setChan_m1_setChan_m2, reset_eq_zeroChannel]

end Sys2Proof.Machine
